-- ==== Sys2Proof/Word.lean ====
section
/-!
DEFINITION. The cell widths of the CSA CORE CPU (00_scope.md R4): bytes, instruction words, the program
counter, button bits, and register numbers. Only names for types stand here.
-/

namespace Sys2Proof

/-- An 8-bit cell: a register, a data-memory cell, a pixel cell (R4 `XLEN`). -/
abbrev Byte := BitVec 8

/-- A 16-bit instruction word (R4 `ILEN`, R50). -/
abbrev InstrWord := BitVec 16

/-- The 13-bit program counter: an index into instruction memory (R4 `PC_BITS`, R13). -/
abbrev Pc := BitVec 13

/-- One button cell (R18). -/
abbrev Bit := BitVec 1

/-- A register number 0 to 7: every value of a 3-bit register field is a legal index (R10, R56). -/
abbrev Reg := Fin 8

end Sys2Proof
end

