-- ==== Sys2Proof/Config.lean ====
section
/-!
DEFINITION. The implementation parameters of 00_scope.md R4, and the one value the spec leaves open
(93_implementation_defined.md U13).
-/

namespace Sys2Proof

/-- `IMEM_MAX`: the greatest image length a `Load` takes (R4, R16, R148 c; the spec's decision D2). -/
abbrev Config.imemMax : Nat := 4096

/-- `DMEM_SIZE`: data memory has cells 0 to 255 (R4, R17). -/
abbrev Config.dmemSize : Nat := 256

/-- `RAM_TOP`, `PIXEL_BASE`: the first data address a store sends to the pixel matrix (R4, R32). -/
abbrev Config.pixelBase : Nat := 128

/-- `BUTTON_BASE`: the load address of button 0 (R4, R32). -/
abbrev Config.buttonBase : Nat := 128

/-- The load address of the last button, button 2 (R32, R33). -/
abbrev Config.buttonLast : Nat := 130

/-- `PIXEL_ROWS` (R4, R19). -/
abbrev Config.pixelRows : Nat := 8

/-- `PIXEL_COLS` (R4, R19). -/
abbrev Config.pixelCols : Nat := 8

/-- `BRANCH_REG`: the register every conditional branch compares against (R4, R11). -/
abbrev Config.branchReg : Reg := 6

/-- `LINK_REG`: the register JAL writes the return index to (R4, R11). -/
abbrev Config.linkReg : Reg := 7

/-- `WATCH_PERIOD`: steps between two calls of the display callback (R4, R152). -/
abbrev Config.watchPeriod : Nat := 50

/-- What a data-memory cell that the memory list does not name holds: the value `Reset` gives every cell
(R23, R143). -/
abbrev Config.unlistedCell : Byte := 0

/-- FREE VALUE. Whether `WatchN` still calls its display callback for a step with index `i` that FAULTED:
the spec gives no answer (U13, N21: "any value"). The callback changes no state. Log entry 6. -/
opaque Config.callbackAfterFaultingStep (i : Nat) : Bool

end Sys2Proof
end

