-- ==== Sys2Proof/Syntax.lean ====
section
/-!
DEFINITION. The instructions: one constructor for each of the 16 rows of spec/opcode_table.json
(30_encoding.md R55), with the operands the row uses. An immediate is the unsigned number the decoder reads
from its bit range (R51, R56); `Instr.wf` bounds it. The operands a row ignores are not part of the
instruction (R58).
-/

namespace Sys2Proof

/-- An instruction of the CSA CORE CPU (R55). -/
inductive Instr where
  /-- LB, opcode 0000 (R70): load a byte from the address in `src2` to `dest`. -/
  | lb (dest src2 : Reg)
  /-- SB, opcode 0001 (R71): store the byte in `src1` to the address in `src2`. -/
  | sb (src1 src2 : Reg)
  /-- ADD, opcode 0010 (R80). -/
  | add (dest src1 src2 : Reg)
  /-- SUB, opcode 0011 (R81): `src1` minus `src2`. -/
  | sub (dest src1 src2 : Reg)
  /-- MOVE, opcode 0100 (R82). -/
  | move (dest src1 : Reg)
  /-- ADDI, opcode 0101 (R83): `imm` is the unsigned 9-bit immediate. -/
  | addi (dest : Reg) (imm : Nat)
  /-- SETI, opcode 0110 (R84): `imm` is the unsigned 9-bit immediate. -/
  | seti (dest : Reg) (imm : Nat)
  /-- BEQ, opcode 0111 (R91): `imm` is the raw 9-bit immediate, sign-extended when it is used. -/
  | beq (dest : Reg) (imm : Nat)
  /-- BNE, opcode 1000 (R92): `imm` as in BEQ. -/
  | bne (dest : Reg) (imm : Nat)
  /-- BLT, opcode 1001 (R93): `imm` as in BEQ. -/
  | blt (dest : Reg) (imm : Nat)
  /-- JR, opcode 1010 (R94). -/
  | jr (src1 : Reg)
  /-- JAL, opcode 1011 (R95): `imm` is the unsigned 12-bit absolute target. -/
  | jal (imm : Nat)
  /-- The undefined opcode 1100 (R57, R100). -/
  | undefined1100
  /-- The undefined opcode 1101 (R57, R100). -/
  | undefined1101
  /-- The undefined opcode 1110 (R57, R100). -/
  | undefined1110
  /-- The undefined opcode 1111 (R57, R100). -/
  | undefined1111
deriving DecidableEq, Repr

/-- The opcode of each instruction (R55, column `opcode`). -/
def Instr.opcode : Instr → Fin 16
  | .lb _ _ => 0b0000
  | .sb _ _ => 0b0001
  | .add _ _ _ => 0b0010
  | .sub _ _ _ => 0b0011
  | .move _ _ => 0b0100
  | .addi _ _ => 0b0101
  | .seti _ _ => 0b0110
  | .beq _ _ => 0b0111
  | .bne _ _ => 0b1000
  | .blt _ _ => 0b1001
  | .jr _ => 0b1010
  | .jal _ => 0b1011
  | .undefined1100 => 0b1100
  | .undefined1101 => 0b1101
  | .undefined1110 => 0b1110
  | .undefined1111 => 0b1111

end Sys2Proof
end

