-- ==== Sys2Proof/WellFormed.lean ====
section
/-!
DEFINITION. Which instruction terms have an encoding, and which images a `Load` takes. A register number is
legal by its type (R56); an immediate must fit its field (R53, R54); an image has at most `IMEM_MAX` words
(R16, R148 c).
-/

namespace Sys2Proof

/-- A 9-bit immediate is 0 to 511 (R53, R56). -/
abbrev fitsImm9 (imm : Nat) : Bool := decide (imm < 512)

/-- The JAL immediate is 0 to 4095 (R54, R56). -/
abbrev fitsImm12 (imm : Nat) : Bool := decide (imm < 4096)

/-- The instruction has an encoding: its immediate fits the field its format gives it (R52 to R54, R56). -/
def Instr.wf : Instr → Bool
  | .lb _ _ => true
  | .sb _ _ => true
  | .add _ _ _ => true
  | .sub _ _ _ => true
  | .move _ _ => true
  | .addi _ imm => fitsImm9 imm
  | .seti _ imm => fitsImm9 imm
  | .beq _ imm => fitsImm9 imm
  | .bne _ imm => fitsImm9 imm
  | .blt _ imm => fitsImm9 imm
  | .jr _ => true
  | .jal imm => fitsImm12 imm
  | .undefined1100 => true
  | .undefined1101 => true
  | .undefined1110 => true
  | .undefined1111 => true

/-- An image is a list of at most `IMEM_MAX` words; the empty image is one (R16, R148 b and c). -/
def imageWf (image : List InstrWord) : Bool := decide (image.length ≤ Config.imemMax)

end Sys2Proof
end

