-- ==== Sys2Proof/Decode.lean ====
section
/-!
DEFINITION. The decoder (30_encoding.md R51 to R58) and, after it, the encoder. The decoder is total on 16-bit
words and rejects none of them: every word is exactly one row of the opcode map (R55, R59) and nothing is
checked at decode time (R51). The only thing it can reject is a number that is longer than an instruction word.
-/

namespace Sys2Proof

/-- `w[hi:lo]` of 00_scope.md R5: the unsigned number made of bits `hi` down to `lo`. -/
def bits (w : InstrWord) (hi lo : Nat) : Nat := w.toNat / 2 ^ lo % 2 ^ (hi - lo + 1)

/-- The five fields the decoder extracts from every word (R51). -/
structure Fields where
  opcode : Fin 16
  dest : Reg
  src1 : Reg
  src2 : Reg
  imm : Nat
deriving DecidableEq, Repr

/-- `Decode(w)` of R51: the same five fields of every word; the immediate has 12 bits for opcode 1011 (JAL)
and 9 bits for every other opcode. -/
def decodeFields (w : InstrWord) : Fields where
  opcode := Fin.ofNat 16 (bits w 15 12)
  dest := Fin.ofNat 8 (bits w 11 9)
  src1 := Fin.ofNat 8 (bits w 8 6)
  src2 := Fin.ofNat 8 (bits w 5 3)
  imm := if bits w 15 12 = 0b1011 then bits w 11 0 else bits w 8 0

/-- The dispatch on the opcode alone (R55, R141): which instruction the fields stand for, each taking the
fields its row uses and ignoring the others (R52 to R54, R58). -/
def instrOfFields (f : Fields) : Instr :=
  match f.opcode with
  | 0b0000 => .lb f.dest f.src2
  | 0b0001 => .sb f.src1 f.src2
  | 0b0010 => .add f.dest f.src1 f.src2
  | 0b0011 => .sub f.dest f.src1 f.src2
  | 0b0100 => .move f.dest f.src1
  | 0b0101 => .addi f.dest f.imm
  | 0b0110 => .seti f.dest f.imm
  | 0b0111 => .beq f.dest f.imm
  | 0b1000 => .bne f.dest f.imm
  | 0b1001 => .blt f.dest f.imm
  | 0b1010 => .jr f.src1
  | 0b1011 => .jal f.imm
  | 0b1100 => .undefined1100
  | 0b1101 => .undefined1101
  | 0b1110 => .undefined1110
  | 0b1111 => .undefined1111
  | ⟨n + 16, h⟩ => absurd h (by omega)

/-- The instruction a 16-bit word stands for (R51, R55); total. -/
def decode (w : InstrWord) : Instr := instrOfFields (decodeFields w)

/-- Why a number is no instruction word. -/
inductive DecodeReject where
  /-- The number has more than 16 bits: there is one instruction length (R50). Raised by `decodeNumber`. -/
  | longerThanAWord
deriving DecidableEq, Repr

/-- The instruction of a number of `nbits` bits, the bits above `nbits` taken as 0. An instruction memory cell
is one 16-bit word, so no byte order enters (R36, R50). -/
def decodeNumber (nbits w : Nat) : Except DecodeReject Instr :=
  if nbits ≤ 16 then .ok (decode (BitVec.ofNat 16 (w % 2 ^ nbits))) else .error .longerThanAWord

/-- The decoder, on a word numbered as spec/opcode_table.json numbers it. -/
def decodeTableWord (nbits w : Nat) : Option Instr :=
  match decodeNumber nbits w with
  | .ok i => some i
  | .error _ => none

/-! ## The encoder: the canonical word of an instruction (R52 to R54, R58, R60) -/

/-- An R-format word with its unused bits 0 (R52). -/
def wordR (opcode : Fin 16) (dest src1 src2 : Reg) : InstrWord :=
  BitVec.ofNat 16 (opcode.val * 4096 + dest.val * 512 + src1.val * 64 + src2.val * 8)

/-- An I-format word (R53). -/
def wordI (opcode : Fin 16) (dest : Reg) (imm : Nat) : InstrWord :=
  BitVec.ofNat 16 (opcode.val * 4096 + dest.val * 512 + imm)

/-- A JAL-format word (R54); with `imm = 0`, also the canonical word of an undefined opcode. -/
def wordJal (opcode : Fin 16) (imm : Nat) : InstrWord :=
  BitVec.ofNat 16 (opcode.val * 4096 + imm)

/-- The canonical word of a well-formed instruction: every ignored bit is 0 (R58, R60). -/
def encode : Instr → InstrWord
  | .lb dest src2 => wordR 0b0000 dest 0 src2
  | .sb src1 src2 => wordR 0b0001 0 src1 src2
  | .add dest src1 src2 => wordR 0b0010 dest src1 src2
  | .sub dest src1 src2 => wordR 0b0011 dest src1 src2
  | .move dest src1 => wordR 0b0100 dest src1 0
  | .addi dest imm => wordI 0b0101 dest imm
  | .seti dest imm => wordI 0b0110 dest imm
  | .beq dest imm => wordI 0b0111 dest imm
  | .bne dest imm => wordI 0b1000 dest imm
  | .blt dest imm => wordI 0b1001 dest imm
  | .jr src1 => wordR 0b1010 0 src1 0
  | .jal imm => wordJal 0b1011 imm
  | .undefined1100 => wordJal 0b1100 0
  | .undefined1101 => wordJal 0b1101 0
  | .undefined1110 => wordJal 0b1110 0
  | .undefined1111 => wordJal 0b1111 0

/-- The bits a word with this opcode may set freely, as a mask: the table of ignored bits of R58. -/
def ignoredBits (opcode : Fin 16) : InstrWord :=
  match opcode with
  | 0b0000 => 0b0000000111000111
  | 0b0001 => 0b0000111000000111
  | 0b0010 => 0b0000000000000111
  | 0b0011 => 0b0000000000000111
  | 0b0100 => 0b0000000000111111
  | 0b0101 => 0
  | 0b0110 => 0
  | 0b0111 => 0
  | 0b1000 => 0
  | 0b1001 => 0
  | 0b1010 => 0b0000111000111111
  | 0b1011 => 0
  | 0b1100 => 0b0000111111111111
  | 0b1101 => 0b0000111111111111
  | 0b1110 => 0b0000111111111111
  | 0b1111 => 0b0000111111111111
  | ⟨n + 16, h⟩ => absurd h (by omega)

end Sys2Proof
end

