-- ==== Sys2Proof/Machine/State.lean ====
section
/-!
DEFINITION. The architectural state of 10_state.md R24, exactly the tuple `(pc, x, DMem, Btn, Pix, IMem)`, the
faults a step can end in (60_exceptions.md R110), and the state after reset (R23). There are no flags, no
control registers, no modes and no hidden state (R20 to R22).
-/

namespace Sys2Proof.Machine

/-- Data memory as (address, byte) cells in rising order of address, none holding the value an unlisted
address reads as; `Memory.wf` says so (R17). -/
abbrev Memory := List Host.Cell

/-- The architectural state (R24). -/
structure State where
  /-- The program counter: an instruction-memory index, not a byte address (R13). -/
  pc : Pc
  /-- The 8 general registers, none of them hardwired (R10, R11). -/
  x : Vector Byte 8
  /-- The 256 cells of data memory (R17). -/
  dmem : Memory
  /-- The button latch: written by the host, read by LB (R18). -/
  btn : Vector Bit 3
  /-- The pixel matrix, a vector of rows: written by SB, read by no instruction (R19). -/
  pix : Vector (Vector Byte 8) 8
  /-- Instruction memory; its length is `IMEM_LEN` (R16). -/
  imem : List InstrWord
deriving DecidableEq, Repr

/-- The faults a step can end in. Each leaves the state as it was before the step (R112). -/
inductive Fault where
  /-- Raised by the fetch of any step whose `pc` is not below `IMEM_LEN` (R111). Safe: the machine itself stops. -/
  | outOfBoundsFetch (pc : Pc)
  /-- Raised by SB only, when the store address is 192 to 255, with the row (8 to 15) and the column it would
  have (R113; the spec's decision D3). Safe: where the original went on, the model stops. -/
  | pixelStoreOutOfRange (addr : Byte) (row col : Nat)
deriving DecidableEq, Repr

/-- Why the model gives an instruction no meaning. No arm of `exec` raises it: every row of the opcode table
has a meaning. -/
inductive Refusal where
  /-- An instruction whose meaning is not written yet, by its mnemonic. Safe: nothing is proved of it. -/
  | notModelled (mnemonic : String)
deriving DecidableEq, Repr

/-- How a step ends: a next state, a fault or a refusal. -/
abbrev StepResult := Host.Outcome State Fault Refusal

/-- The state right after a `Reset`, with the empty image in instruction memory: every piece of mutable state
is zero (R23, R143). It is the state a successful `Load` of an empty stream gives (R146, R148 b); the state
before the first `Load` is not a state of the model (R149). Log entry 1. -/
def State.reset : State where
  pc := 0
  x := Vector.replicate 8 0
  dmem := []
  btn := Vector.replicate 3 0
  pix := Vector.replicate 8 (Vector.replicate 8 0)
  imem := []

end Sys2Proof.Machine
end

