-- ==== Sys2Proof/Machine/Operands.lean ====
section
/-!
DEFINITION. The number conversions of 00_scope.md R5 and every operand form an instruction has: a register, the
register-indirect address, the branch target, the absolute targets. All arithmetic is on integers and is wrapped
at the end, as R5 writes it.
-/

namespace Sys2Proof.Machine

/-- `wrap8(v) = v mod 256` (R5). -/
def wrap8 (v : Int) : Byte := BitVec.ofInt 8 v

/-- `wrap13(v) = v mod 8192` (R5, R13). -/
def wrap13 (v : Int) : Pc := BitVec.ofInt 13 v

/-- `sext_9(v)`: a 9-bit value read as a signed number, -256 to 255 (R5). -/
def sext9 (v : Nat) : Int := if v ≤ 255 then (v : Int) else (v : Int) - 512

/-- `signed8(v)`: a byte read as a two's-complement number, -128 to 127 (R5). -/
def signed8 (v : Byte) : Int := if v.toNat ≤ 127 then (v.toNat : Int) else (v.toNat : Int) - 256

/-- `zext_8` of a button bit: 0 or 1 (R5, R33). -/
def zext8 (b : Bit) : Byte := b.setWidth 8

/-- `zext_13` of a register value: the JR target, 0 to 255 (R5, R94). -/
def zext13 (v : Byte) : Pc := v.setWidth 13

/-- The value of a register operand (R6 `x[i]`). -/
def State.readReg (s : State) (r : Reg) : Byte := s.x[r]

/-- The effective address of LB and SB: the value of the register `src2` names, with no offset (R31). -/
def State.effectiveAddress (s : State) (src2 : Reg) : Byte := s.readReg src2

/-- The index of the next instruction in sequence (R14). -/
def State.nextPc (s : State) : Pc := wrap13 (s.pc.toNat + 1)

/-- The target of a taken branch: the offset is added to the index of the branch itself (R90). -/
def State.branchTarget (s : State) (imm : Nat) : Pc := wrap13 (s.pc.toNat + sext9 imm)

/-- The return index JAL saves: the low 8 bits of `pc + 1` (R95). -/
def State.linkValue (s : State) : Byte := wrap8 (s.pc.toNat + 1)

/-- The row of the pixel matrix a store address of 128 or more names, 0 to 15 (R34). -/
def pixelRow (addr : Byte) : Nat := (addr.toNat - Config.pixelBase) / Config.pixelCols

/-- The column of the pixel matrix a store address of 128 or more names, 0 to 7 (R34). -/
def pixelCol (addr : Byte) : Nat := (addr.toNat - Config.pixelBase) % Config.pixelCols

end Sys2Proof.Machine
end

