-- ==== Sys2Proof/Machine/Flags.lean ====
section
/-!
DEFINITION. The hardware has no status flags (10_state.md R20): carry, borrow and overflow are discarded. What
other machines do with flags, a conditional branch does by comparing two registers when it executes (R90 to R93).
These are the three comparisons.
-/

namespace Sys2Proof.Machine

/-- BEQ's condition: the bit patterns of `x[dest]` and register 6 are equal (R91). -/
def State.equalsBranchReg (s : State) (dest : Reg) : Bool :=
  s.readReg dest == s.readReg Config.branchReg

/-- BNE's condition: the bit patterns differ (R92). -/
def State.differsFromBranchReg (s : State) (dest : Reg) : Bool :=
  s.readReg dest != s.readReg Config.branchReg

/-- BLT's condition: `x[dest]` is less than register 6, both read as signed numbers; the comparison is exact,
not a wrapping subtraction (R93 e). -/
def State.lessThanBranchReg (s : State) (dest : Reg) : Bool :=
  decide (signed8 (s.readReg dest) < signed8 (s.readReg Config.branchReg))

end Sys2Proof.Machine
end

