-- ==== Sys2Proof/Machine/Ops.lean ====
section
/-!
DEFINITION. The named operations over registers, data memory, devices, instruction memory and the program
counter that every meaning is written with (00_scope.md R6), the two memory primitives `MemRead` and `MemWrite`
(20_memory.md R33, R34), the fetch (R141) and the raising of a fault (R112).
-/

namespace Sys2Proof.Machine

/-! ## Data memory as a list of cells -/

/-- The byte at an address; an address with no cell holds what `Reset` gave it (R23). -/
def Memory.read : Memory → Nat → Byte
  | [], _ => Config.unlistedCell
  | (b, v) :: rest, a => if b = a then v else Memory.read rest a

/-- The memory without any cell at an address. -/
def Memory.erase (m : Memory) (a : Nat) : Memory := m.filter (fun c => c.1 != a)

/-- The memory with one more cell, put before the first cell of a greater address. -/
def Memory.insert : Memory → Nat → Byte → Memory
  | [], a, v => [(a, v)]
  | (b, u) :: rest, a, v => if a < b then (a, v) :: (b, u) :: rest else (b, u) :: Memory.insert rest a v

/-- The write of one byte; writing what an unlisted address reads as removes the cell. -/
def Memory.write (m : Memory) (a : Nat) (v : Byte) : Memory :=
  if v = Config.unlistedCell then Memory.erase m a else Memory.insert (Memory.erase m a) a v

/-- The canonical form from address `lo` on: addresses strictly rising and inside data memory, no cell equal to
what an unlisted address reads as. -/
def Memory.wfFrom : Nat → Memory → Bool
  | _, [] => true
  | lo, (a, v) :: rest =>
    decide (lo ≤ a) && decide (a < Config.dmemSize) && (v != Config.unlistedCell) && Memory.wfFrom (a + 1) rest

/-- The canonical form of data memory (R17). -/
def Memory.wf (m : Memory) : Bool := Memory.wfFrom 0 m

/-! ## Cells of the state -/

/-- Write of a register (R6 `x[i] <- v`); no register is hardwired (R11). -/
def State.writeReg (s : State) (r : Reg) (v : Byte) : State := { s with x := s.x.set r v }

/-- Write of the program counter (R6 `pc <- t`). -/
def State.setPc (s : State) (t : Pc) : State := { s with pc := t }

/-- The cell `DMem[a]` (R17). -/
def State.readDmem (s : State) (a : Byte) : Byte := Memory.read s.dmem a.toNat

/-- Write of the cell `DMem[a]` (R17). -/
def State.writeDmem (s : State) (a v : Byte) : State := { s with dmem := Memory.write s.dmem a.toNat v }

/-- The button bit `Btn[k]` (R18). -/
def State.readButton (s : State) (k : Fin 3) : Bit := s.btn[k]

/-- The pixel cell `Pix[row][col]` (R19); no instruction reads it. -/
def State.readPixel (s : State) (row col : Fin 8) : Byte := s.pix[row][col]

/-- Write of the pixel cell `Pix[row][col]` (R19). -/
def State.writePixel (s : State) (row col : Fin 8) (v : Byte) : State :=
  { s with pix := s.pix.set row (s.pix[row].set col v) }

/-! ## Faults -/

/-- `raise F(info)`: the step ends with the fault as its outcome. That is all taking a fault does on this
hardware: nothing is saved, no mode changes, nothing is latched and control goes nowhere (R6, R112, R117); there
is no return from a fault (R118). -/
def raise (f : Fault) : StepResult := .fault f

/-! ## The data space -/

/-- `MemRead(addr, 1)`: the load path (R33). Addresses 128 to 130 are the buttons; every other address is the
data-memory cell of the same number. Never faults. -/
def State.memRead (s : State) (addr : Byte) : Byte :=
  if Config.buttonBase ≤ addr.toNat ∧ addr.toNat ≤ Config.buttonLast then
    zext8 (s.readButton (Fin.ofNat 3 (addr.toNat - Config.buttonBase)))
  else s.readDmem addr

/-- `MemWrite(addr, 1, v)`: the store path (R34). Addresses below 128 are data memory, 128 to 191 the pixel
matrix, and 192 to 255 fault with nothing written (the spec's decision D3). -/
def State.memWrite (s : State) (addr v : Byte) : Except Fault State :=
  if addr.toNat < Config.pixelBase then .ok (s.writeDmem addr v)
  else if pixelRow addr < Config.pixelRows then
    .ok (s.writePixel (Fin.ofNat 8 (pixelRow addr)) (Fin.ofNat 8 (pixelCol addr)) v)
  else .error (.pixelStoreOutOfRange addr (pixelRow addr) (pixelCol addr))

/-! ## How an instruction ends -/

/-- The instruction writes one register and goes on to the next index (R14). The value is computed from the
state before the step (R6). -/
def State.retireReg (s : State) (dest : Reg) (v : Byte) : StepResult :=
  .next ((s.writeReg dest v).setPc s.nextPc)

/-- A conditional branch: the target when the condition holds, else the next index (R90). -/
def State.branchIf (s : State) (taken : Bool) (imm : Nat) : StepResult :=
  .next (s.setPc (if taken then s.branchTarget imm else s.nextPc))

/-- The step completes and changes nothing, `pc` included (R100). -/
def State.stall (s : State) : StepResult := .next s

/-! ## Instruction memory -/

/-- The fetch of a step: the word at `pc`, or the fault `OutOfBoundsFetch` when `pc` is no index of instruction
memory (R111, R141). -/
def State.fetch (s : State) : Except Fault InstrWord :=
  match s.imem[s.pc.toNat]? with
  | some w => .ok w
  | none => .error (.outOfBoundsFetch s.pc)

/-- An image with `w` at index `i`. Where the image ends before `i`, words of the undefined opcode 1111 fill the
gap, as the images of 95_test_vectors.md section 1 are filled. -/
def imageWithWordAt (image : List InstrWord) (i : Nat) (w : InstrWord) : List InstrWord :=
  (image ++ List.replicate (i + 1 - image.length) 0xF000).set i w

end Sys2Proof.Machine
end

