-- ==== Sys2Proof/Machine/Arithmetic.lean ====
section
/-!
DEFINITION. ADD, SUB, MOVE, ADDI, SETI (41_arithmetic.md). All wrap modulo 256 and leave no side result (R85).
-/

namespace Sys2Proof.Machine

/-- ADD (R80). -/
def execAdd (dest src1 src2 : Reg) (s : State) : StepResult :=
  s.retireReg dest (wrap8 ((s.readReg src1).toNat + (s.readReg src2).toNat))

/-- SUB (R81): `src1` is the minuend. -/
def execSub (dest src1 src2 : Reg) (s : State) : StepResult :=
  s.retireReg dest (wrap8 ((s.readReg src1).toNat - (s.readReg src2).toNat))

/-- MOVE (R82). -/
def execMove (dest src1 : Reg) (s : State) : StepResult :=
  s.retireReg dest (s.readReg src1)

/-- ADDI (R83): the immediate is added as an unsigned number; there is no sign extension. -/
def execAddi (dest : Reg) (imm : Nat) (s : State) : StepResult :=
  s.retireReg dest (wrap8 ((s.readReg dest).toNat + imm))

/-- SETI (R84): the immediate modulo 256. -/
def execSeti (dest : Reg) (imm : Nat) (s : State) : StepResult :=
  s.retireReg dest (wrap8 imm)

end Sys2Proof.Machine
end

