-- ==== Sys2Proof/Machine/ControlTransfer.lean ====
section
/-!
DEFINITION. BEQ, BNE, BLT, JR, JAL (42_control_transfer.md). No target is checked when the transfer executes; a
target outside instruction memory is found by the next fetch (R90).
-/

namespace Sys2Proof.Machine

/-- BEQ (R91). -/
def execBeq (dest : Reg) (imm : Nat) (s : State) : StepResult :=
  s.branchIf (s.equalsBranchReg dest) imm

/-- BNE (R92). -/
def execBne (dest : Reg) (imm : Nat) (s : State) : StepResult :=
  s.branchIf (s.differsFromBranchReg dest) imm

/-- BLT (R93). -/
def execBlt (dest : Reg) (imm : Nat) (s : State) : StepResult :=
  s.branchIf (s.lessThanBranchReg dest) imm

/-- JR (R94): the target is absolute and 8 bits wide; JR does not link. -/
def execJr (src1 : Reg) (s : State) : StepResult :=
  .next (s.setPc (zext13 (s.readReg src1)))

/-- JAL (R95): register 7 gets the low 8 bits of the index after the JAL, and `pc` the absolute target. -/
def execJal (imm : Nat) (s : State) : StepResult :=
  .next ((s.writeReg Config.linkReg s.linkValue).setPc (wrap13 imm))

end Sys2Proof.Machine
end

