-- ==== Sys2Proof/Machine/LoadStore.lean ====
section
/-!
DEFINITION. LB and SB (40_load_store.md): the only instructions that reach the data space. One addressing mode:
register indirect.
-/

namespace Sys2Proof.Machine

/-- LB (R70). The address is read before the register is written, so `dest` may be the address register. -/
def execLb (dest src2 : Reg) (s : State) : StepResult :=
  s.retireReg dest (s.memRead (s.effectiveAddress src2))

/-- SB (R71). Where `MemWrite` raises, nothing is changed, `pc` included. -/
def execSb (src1 src2 : Reg) (s : State) : StepResult :=
  match s.memWrite (s.effectiveAddress src2) (s.readReg src1) with
  | .ok t => .next (t.setPc s.nextPc)
  | .error f => raise f

end Sys2Proof.Machine
end

