-- ==== Sys2Proof/Machine/UndefinedOpcodes.lean ====
section
/-!
DEFINITION. The four undefined opcode values (43_unrecognized_opcodes.md R100): the step completes, nothing
changes, `pc` does not advance, no fault is raised. There is no strict mode that could change this (R101).
-/

namespace Sys2Proof.Machine

/-- Opcode 1100 (R100). -/
def execUndefined1100 (s : State) : StepResult := s.stall

/-- Opcode 1101 (R100). -/
def execUndefined1101 (s : State) : StepResult := s.stall

/-- Opcode 1110 (R100). -/
def execUndefined1110 (s : State) : StepResult := s.stall

/-- Opcode 1111 (R100). -/
def execUndefined1111 (s : State) : StepResult := s.stall

end Sys2Proof.Machine
end

