-- ==== Sys2Proof/Machine/Dispatch.lean ====
section
/-!
DEFINITION. The dispatch of 70_reset_and_hazards.md R141: one arm per instruction.
-/

namespace Sys2Proof.Machine

def exec (i : Instr) (s : State) : Host.Outcome State Fault Refusal :=
  match i with
  | .lb dest src2 => Sys2Proof.Machine.execLb dest src2 s
  | .sb src1 src2 => Sys2Proof.Machine.execSb src1 src2 s
  | .add dest src1 src2 => Sys2Proof.Machine.execAdd dest src1 src2 s
  | .sub dest src1 src2 => Sys2Proof.Machine.execSub dest src1 src2 s
  | .move dest src1 => Sys2Proof.Machine.execMove dest src1 s
  | .addi dest imm => Sys2Proof.Machine.execAddi dest imm s
  | .seti dest imm => Sys2Proof.Machine.execSeti dest imm s
  | .beq dest imm => Sys2Proof.Machine.execBeq dest imm s
  | .bne dest imm => Sys2Proof.Machine.execBne dest imm s
  | .blt dest imm => Sys2Proof.Machine.execBlt dest imm s
  | .jr src1 => Sys2Proof.Machine.execJr src1 s
  | .jal imm => Sys2Proof.Machine.execJal imm s
  | .undefined1100 => Sys2Proof.Machine.execUndefined1100 s
  | .undefined1101 => Sys2Proof.Machine.execUndefined1101 s
  | .undefined1110 => Sys2Proof.Machine.execUndefined1110 s
  | .undefined1111 => Sys2Proof.Machine.execUndefined1111 s

end Sys2Proof.Machine
end

