-- ==== Sys2Proof/Machine/Step.lean ====
section
/-!
DEFINITION. The step of 70_reset_and_hazards.md R141: fetch, decode, execute. The step adds no increment of its
own: each instruction's meaning writes `pc`.
-/

namespace Sys2Proof.Machine

/-- `Step` (R141): a total, deterministic function of the state alone (R24). -/
def step (s : State) : Host.Outcome State Fault Refusal :=
  match s.fetch with
  | .error f => raise f
  | .ok w => exec (decode w) s

/-- The state with the instruction word of `nbits` bits in instruction memory at `pc`, where the next step
fetches it. Nothing else changes, but that an image that ends before `pc` is filled up to it. It stands for the
`Load` that puts a program there (R146). Log entry 2. -/
def State.withFetchWord (s : State) (nbits w : Nat) : State :=
  { s with imem := imageWithWordAt s.imem s.pc.toNat (BitVec.ofNat 16 (w % 2 ^ nbits)) }

end Sys2Proof.Machine
end

