-- ==== Sys2Proof/Machine/HostInterface.lean ====
section
/-!
DEFINITION. The host events that make no step (70_reset_and_hazards.md R140): `Reset` (R143), `Load` (R145 to
R148), `SetButtons` (60_exceptions.md R123) and the snapshot of `Observe` (R129). Each is one atomic event
between two steps; a text is its list of characters.
-/

namespace Sys2Proof.Machine

/-! ## Reset -/

/-- The event `Reset`: every piece of mutable state becomes zero and instruction memory stays (R23, R143, R144). -/
def State.hostReset (s : State) : State := { State.reset with imem := s.imem }

/-! ## Load -/

/-- The failure of `Load`: the host gets no more than its name, and no state changes (R119, R147, R148). -/
inductive LoadError where
  /-- Raised by `Load` on a token that is not hexadecimal or is above 0xFFFF, or on more than 4096 tokens. -/
  | loadError
deriving DecidableEq, Repr

/-- Spaces, tabs and line ends separate tokens (R145). Line feed and carriage return both count as line ends.
Log entry 3. -/
def isSeparator (c : Char) : Bool := c == ' ' || c == '\t' || c == '\n' || c == '\r'

/-- The value of a hexadecimal digit `0-9`, `a-f`, `A-F` (R145). -/
def hexDigit (c : Char) : Option Nat :=
  if '0'.toNat ≤ c.toNat ∧ c.toNat ≤ '9'.toNat then some (c.toNat - '0'.toNat)
  else if 'a'.toNat ≤ c.toNat ∧ c.toNat ≤ 'f'.toNat then some (c.toNat - 'a'.toNat + 10)
  else if 'A'.toNat ≤ c.toNat ∧ c.toNat ≤ 'F'.toNat then some (c.toNat - 'A'.toNat + 10)
  else none

/-- The tokens of a text: its maximal runs of characters that separate nothing (R145). `cur` is the token under
way. -/
def tokensFrom (cur : List Char) : List Char → List (List Char)
  | [] => if cur = [] then [] else [cur]
  | c :: rest =>
    if isSeparator c then (if cur = [] then tokensFrom [] rest else cur :: tokensFrom [] rest)
    else tokensFrom (cur ++ [c]) rest

/-- The value of a run of hexadecimal digits after digits worth `acc`, most significant digit first (R36, R145). -/
def hexValueFrom (acc : Nat) : List Char → Option Nat
  | [] => some acc
  | c :: rest =>
    match hexDigit c with
    | some d => hexValueFrom (16 * acc + d) rest
    | none => none

/-- The instruction word of a token, one or more hexadecimal digits; a value above 0xFFFF does not fit and is
refused, not truncated (R145, R148 a). -/
def wordOfToken (token : List Char) : Except LoadError InstrWord :=
  if token = [] then .error .loadError
  else match hexValueFrom 0 token with
  | some v => if v ≤ 0xFFFF then .ok (BitVec.ofNat 16 v) else .error .loadError
  | none => .error .loadError

/-- The words of a list of tokens, in order; one bad token fails them all (R147). -/
def wordsOfTokens : List (List Char) → Except LoadError (List InstrWord)
  | [] => .ok []
  | token :: rest =>
    match wordOfToken token with
    | .ok w =>
      match wordsOfTokens rest with
      | .ok ws => .ok (w :: ws)
      | .error e => .error e
    | .error e => .error e

/-- The image of a text stream (R145, R148): no token at all is the empty image, and more than `IMEM_MAX` tokens
fail. -/
def parseImage (source : List Char) : Except LoadError (List InstrWord) :=
  match wordsOfTokens (tokensFrom [] source) with
  | .ok image => if imageWf image then .ok image else .error .loadError
  | .error e => .error e

/-- The state right after a successful `Load` of an image: the whole of instruction memory is replaced and a
`Reset` is done (R146). Every run starts in such a state (R149). -/
def State.afterLoad (image : List InstrWord) : State := { State.reset with imem := image }

/-- The event `Load`: on success the state of R146, whatever the state was; a failure gives no new state, since
nothing changes (R147). -/
def load (source : List Char) : Except LoadError State :=
  match parseImage source with
  | .ok image => .ok (State.afterLoad image)
  | .error e => .error e

/-- A hexadecimal digit as a character. -/
def hexChar (d : Nat) : Char := if d < 10 then Char.ofNat (48 + d) else Char.ofNat (55 + d)

/-- A word as a token of four digits, the form the programs of 95_test_vectors.md are written in. -/
def tokenOfWord (w : InstrWord) : List Char :=
  [hexChar (w.toNat / 4096 % 16), hexChar (w.toNat / 256 % 16), hexChar (w.toNat / 16 % 16), hexChar (w.toNat % 16)]

/-- An image as a load text: one token a word, a space after each. -/
def textOfImage (image : List InstrWord) : List Char :=
  image.flatMap (fun w => tokenOfWord w ++ [' '])

/-! ## SetButtons -/

/-- The failure of `SetButtons`: the host gets its name, and no state changes (R119, R123). -/
inductive ButtonError where
  /-- Raised by `SetButtons` on a pattern that is not exactly 3 characters, each `0` or `1`. -/
  | buttonError
deriving DecidableEq, Repr

/-- The bit of a pattern character (R123). -/
def bitOfChar (c : Char) : Option Bit :=
  if c = '0' then some 0 else if c = '1' then some 1 else none

/-- The event `SetButtons`: three characters, leftmost first, become `Btn[0]`, `Btn[1]`, `Btn[2]` together;
nothing else changes (R123). -/
def State.setButtons (s : State) (pattern : List Char) : Except ButtonError State :=
  match pattern with
  | [c0, c1, c2] =>
    match bitOfChar c0, bitOfChar c1, bitOfChar c2 with
    | some b0, some b1, some b2 => .ok { s with btn := #v[b0, b1, b2] }
    | _, _, _ => .error .buttonError
  | _ => .error .buttonError

/-! ## Observe -/

/-- The read-only snapshot (R129). -/
structure Snapshot where
  pc : Pc
  imem : List InstrWord
  /-- The 8 registers. -/
  regs : List Byte
  /-- The 256 data-memory cells. -/
  dmem : List Byte
  /-- The 3 buttons. -/
  btn : List Bit
  /-- The 64 pixel cells, row by row. -/
  pix : List (List Byte)
deriving DecidableEq, Repr

/-- The event `Observe`: everything the state holds, and no change (R129). -/
def State.observe (s : State) : Snapshot where
  pc := s.pc
  imem := s.imem
  regs := s.x.toList
  dmem := (List.range Config.dmemSize).map (Memory.read s.dmem)
  btn := s.btn.toList
  pix := s.pix.toList.map Vector.toList

end Sys2Proof.Machine
end

