-- ==== Sys2Proof/Machine/Drivers.lean ====
section
/-!
DEFINITION. The host's drivers, which only call `step` again and again: `StepN` (70_reset_and_hazards.md R142),
`RunUntil` (60_exceptions.md R128) and `WatchN` (R152); then every event of R140 as one type, and the states a
machine can come to.
-/

namespace Sys2Proof.Machine

/-- What a driver reports to the host (R110, R140). -/
inductive Report where
  | completed
  | fault (f : Fault)
  | refused (r : Refusal)
deriving DecidableEq, Repr

/-- `StepN(n)`: `n` steps, stopping at the first fault, which is reported with the state it left unchanged
(R112, R142; the spec's decision D12). -/
def stepN : Nat → State → State × Report
  | 0, s => (s, .completed)
  | n + 1, s =>
    match step s with
    | .next t => stepN n t
    | .fault f => (s, .fault f)
    | .refused r => (s, .refused r)

/-- `RunUntil(b)` looked at for at most `fuel` steps: one step, then on until `pc` is `b` or a step faults; `none`
if it has not returned by then (R128). The breakpoint is any integer (R128 f). -/
def runUntil (b : Int) : Nat → State → Option (State × Report)
  | 0, _ => none
  | fuel + 1, s =>
    match step s with
    | .next t => if (t.pc.toNat : Int) = b then some (t, .completed) else runUntil b fuel t
    | .fault f => some (s, .fault f)
    | .refused r => some (s, .refused r)

/-- `RunUntil(b)` never returns (R128 d). -/
def RunUntilHangs (b : Int) (s : State) : Prop := ∀ fuel, runUntil b fuel s = none

/-- The steps of `WatchN` from the one with index `i` on: what `StepN` gives, and the snapshots its display
callback received, one after each step whose index is a multiple of 50 (R152). Whether a faulting step is
followed by a call is open (U13). The pause changes no state. -/
def watchFrom (i : Nat) : Nat → State → (State × Report) × List Snapshot
  | 0, s => ((s, .completed), [])
  | n + 1, s =>
    match step s with
    | .next t =>
      ((watchFrom (i + 1) n t).1,
        if i % Config.watchPeriod = 0 then t.observe :: (watchFrom (i + 1) n t).2 else (watchFrom (i + 1) n t).2)
    | .fault f =>
      ((s, .fault f),
        if i % Config.watchPeriod = 0 ∧ Config.callbackAfterFaultingStep i = true then [s.observe] else [])
    | .refused r => ((s, .refused r), [])

/-- `WatchN(n)` (R152). -/
def watchN (n : Nat) (s : State) : (State × Report) × List Snapshot := watchFrom 0 n s

/-- Everything that happens to the machine (R140). A text or a pattern is a list of characters. -/
inductive Event where
  | step
  | stepN (n : Nat)
  | runUntil (b : Int)
  | watchN (n : Nat)
  | reset
  | load (source : List Char)
  | setButtons (pattern : List Char)
  | observe
deriving DecidableEq, Repr

/-- What an event answers to the host (R140, column `result`). -/
inductive Answer where
  | report (r : Report)
  | watched (r : Report) (calls : List Snapshot)
  | done
  | loadFailed (e : LoadError)
  | buttonsFailed (e : ButtonError)
  | snapshot (view : Snapshot)
deriving DecidableEq, Repr

/-- One event on a state: the state after it and its answer. Only a `RunUntil` that has not returned within
`fuel` steps gives none. An event that fails changes nothing (R119). -/
def Event.run (fuel : Nat) (e : Event) (s : State) : Option (State × Answer) :=
  match e with
  | .step => some ((Machine.stepN 1 s).1, .report (Machine.stepN 1 s).2)
  | .stepN n => some ((Machine.stepN n s).1, .report (Machine.stepN n s).2)
  | .runUntil b =>
    match Machine.runUntil b fuel s with
    | some (t, r) => some (t, .report r)
    | none => none
  | .watchN n => some ((Machine.watchN n s).1.1, .watched (Machine.watchN n s).1.2 (Machine.watchN n s).2)
  | .reset => some (s.hostReset, .done)
  | .load source =>
    match Machine.load source with
    | .ok t => some (t, .done)
    | .error err => some (s, .loadFailed err)
  | .setButtons pattern =>
    match s.setButtons pattern with
    | .ok t => some (t, .done)
    | .error err => some (s, .buttonsFailed err)
  | .observe => some (s, .snapshot s.observe)

end Sys2Proof.Machine
end

