-- ==== Sys2Proof/Safety.lean ====
section
/-!
DEFINITION. The terms claims are stated in: what an instruction leaves unchanged, the invariant of every run, the
states a machine can come to, the states in which it makes no progress.
-/

namespace Sys2Proof.Machine

/-! ## Frames -/

/-- Every register but `d` reads as before. -/
def SameRegsBut (d : Reg) (s t : State) : Prop := ∀ r : Reg, r ≠ d → t.readReg r = s.readReg r

/-- Every register reads as before. -/
def SameRegs (s t : State) : Prop := ∀ r : Reg, t.readReg r = s.readReg r

/-- Every data-memory cell reads as before. -/
def SameDmem (s t : State) : Prop := ∀ a : Byte, t.readDmem a = s.readDmem a

/-- Every button reads as before. -/
def SameButtons (s t : State) : Prop := ∀ k : Fin 3, t.readButton k = s.readButton k

/-- Every pixel holds what it held. -/
def SamePixels (s t : State) : Prop := ∀ r c : Fin 8, t.readPixel r c = s.readPixel r c

/-- Data memory, buttons, pixels and instruction memory are as before: all of the state but `pc` and the
registers (R24). -/
def SameMemories (s t : State) : Prop :=
  SameDmem s t ∧ SameButtons s t ∧ SamePixels s t ∧ t.imem = s.imem

/-! ## The invariant of every run -/

/-- No cell of data memory at address 128 or above is listed, so each of them reads 0 (R35, U6). -/
def upperDmemClear (m : Memory) : Bool := m.all (fun c => decide (c.1 < Config.pixelBase))

/-- The invariant: data memory is in canonical form (R17), its cells 128 to 255 are 0 (R35), and the image has at
most `IMEM_MAX` words (R16). -/
def State.Inv (s : State) : Prop :=
  Memory.wf s.dmem = true ∧ upperDmemClear s.dmem = true ∧ imageWf s.imem = true

/-- The states a machine can come to: a successful `Load` starts every run (R149), and any events follow, the
host's `SetButtons` at any place between steps (R124). -/
inductive Reachable : State → Prop where
  | load {source : List Char} {s : State} (h : Machine.load source = .ok s) : Reachable s
  | event {s t : State} {fuel : Nat} {e : Event} {a : Answer} (hs : Reachable s)
      (h : e.run fuel s = some (t, a)) : Reachable t

/-! ## Progress -/

/-- The step from this state goes on. -/
def Completes (s : State) : Prop := ∃ t, step s = .next t

/-- The four kinds of instruction that change nothing where they stand (R151): an undefined opcode, a taken branch
with immediate 0, a JR to its own index, a JAL to its own index when register 7 already holds the return index. -/
def holdsStill (i : Instr) (s : State) : Bool :=
  match i with
  | .lb _ _ => false
  | .sb _ _ => false
  | .add _ _ _ => false
  | .sub _ _ _ => false
  | .move _ _ => false
  | .addi _ _ => false
  | .seti _ _ => false
  | .beq dest imm => s.equalsBranchReg dest && decide (imm = 0)
  | .bne dest imm => s.differsFromBranchReg dest && decide (imm = 0)
  | .blt dest imm => s.lessThanBranchReg dest && decide (imm = 0)
  | .jr src1 => decide ((s.readReg src1).toNat = s.pc.toNat)
  | .jal imm => decide (imm = s.pc.toNat) && decide ((s.readReg 7).toNat = (s.pc.toNat + 1) % 256)
  | .undefined1100 => true
  | .undefined1101 => true
  | .undefined1110 => true
  | .undefined1111 => true

/-- The index the instruction goes on to, as an integer with no wrap: R14's table as the document's unbounded `pc`
reads it (R15). -/
def unwrappedSuccessor (i : Instr) (s : State) : Int :=
  match i with
  | .lb _ _ => s.pc.toNat + 1
  | .sb _ _ => s.pc.toNat + 1
  | .add _ _ _ => s.pc.toNat + 1
  | .sub _ _ _ => s.pc.toNat + 1
  | .move _ _ => s.pc.toNat + 1
  | .addi _ _ => s.pc.toNat + 1
  | .seti _ _ => s.pc.toNat + 1
  | .beq dest imm => if s.readReg dest = s.readReg 6 then s.pc.toNat + sext9 imm else s.pc.toNat + 1
  | .bne dest imm => if s.readReg dest ≠ s.readReg 6 then s.pc.toNat + sext9 imm else s.pc.toNat + 1
  | .blt dest imm =>
    if signed8 (s.readReg dest) < signed8 (s.readReg 6) then s.pc.toNat + sext9 imm else s.pc.toNat + 1
  | .jr src1 => (s.readReg src1).toNat
  | .jal imm => imm
  | .undefined1100 => s.pc.toNat
  | .undefined1101 => s.pc.toNat
  | .undefined1110 => s.pc.toNat
  | .undefined1111 => s.pc.toNat

/-! ## Load texts -/

/-- A token the loader reads digit by digit: one or more hexadecimal digits (R145). -/
def IsToken (token : List Char) : Prop := token ≠ [] ∧ ∀ c ∈ token, (hexDigit c).isSome = true

/-- The number a token of hexadecimal digits stands for, by place value: digit times 16 to the power of the digits
after it (R36, R145). -/
def tokenNumber : List Char → Nat
  | [] => 0
  | c :: rest => (hexDigit c).getD 0 * 16 ^ rest.length + tokenNumber rest

end Sys2Proof.Machine
end

