-- ==== Sys2Proof/Certificates/Slice0/Obligations.lean ====
section
/-!
DEFINITION. The statements for the provers. Each formalises the rule of spec/ its docstring names. Where an
instruction's rule writes `wrap13` or `wrap8`, the statement says the remainder modulo 8192 or 256 as a number; that
`pc` has 13 bits is the spec's decision D2 (R13, log entry 4).
-/

open Sys2Proof Sys2Proof.Machine

/-! ## Decoding and encoding -/

/-- R51: the decoder extracts the same five bit ranges of every word; the immediate has 12 bits for opcode 1011
and 9 bits for every other opcode. -/
def Obligations.DecodedFieldsAreBitRanges : Prop :=
  ∀ w : InstrWord,
    (decodeFields w).opcode.val = w.toNat / 4096 ∧
    (decodeFields w).dest.val = w.toNat / 512 % 8 ∧
    (decodeFields w).src1.val = w.toNat / 64 % 8 ∧
    (decodeFields w).src2.val = w.toNat / 8 % 8 ∧
    (decodeFields w).imm = if w.toNat / 4096 = 11 then w.toNat % 4096 else w.toNat % 512

/-- R55: bits 15 to 12 alone select the row of the opcode map, for all 16 values, and each row reads its own
fields. -/
def Obligations.OpcodeAloneSelectsTheInstruction : Prop :=
  ∀ w : InstrWord,
    let d : Reg := Fin.ofNat 8 (w.toNat / 512)
    let a : Reg := Fin.ofNat 8 (w.toNat / 64)
    let b : Reg := Fin.ofNat 8 (w.toNat / 8)
    let imm : Nat := w.toNat % 512
    (w.toNat / 4096 = 0 → decode w = .lb d b) ∧
    (w.toNat / 4096 = 1 → decode w = .sb a b) ∧
    (w.toNat / 4096 = 2 → decode w = .add d a b) ∧
    (w.toNat / 4096 = 3 → decode w = .sub d a b) ∧
    (w.toNat / 4096 = 4 → decode w = .move d a) ∧
    (w.toNat / 4096 = 5 → decode w = .addi d imm) ∧
    (w.toNat / 4096 = 6 → decode w = .seti d imm) ∧
    (w.toNat / 4096 = 7 → decode w = .beq d imm) ∧
    (w.toNat / 4096 = 8 → decode w = .bne d imm) ∧
    (w.toNat / 4096 = 9 → decode w = .blt d imm) ∧
    (w.toNat / 4096 = 10 → decode w = .jr a) ∧
    (w.toNat / 4096 = 11 → decode w = .jal (w.toNat % 4096)) ∧
    (w.toNat / 4096 = 12 → decode w = .undefined1100) ∧
    (w.toNat / 4096 = 13 → decode w = .undefined1101) ∧
    (w.toNat / 4096 = 14 → decode w = .undefined1110) ∧
    (w.toNat / 4096 = 15 → decode w = .undefined1111)

/-- R58: two words with the same opcode that differ only in bits that instruction ignores decode to the same
instruction, so they execute the same in every state. The mask of each opcode is R58's list. -/
def Obligations.IgnoredBitsChangeNothing : Prop :=
  (∀ w v : InstrWord, w.toNat / 4096 = v.toNat / 4096 →
    w &&& ~~~(ignoredBits (decodeFields w).opcode) = v &&& ~~~(ignoredBits (decodeFields w).opcode) →
    decode w = decode v ∧ ∀ s : State, exec (decode w) s = exec (decode v) s) ∧
  (List.finRange 16).map (fun op => (ignoredBits op).toNat) =
    [0x1C7, 0xE07, 0x007, 0x007, 0x03F, 0, 0, 0, 0, 0, 0xE3F, 0, 0xFFF, 0xFFF, 0xFFF, 0xFFF]

/-- Encoding a decoded word gives the word back with its ignored bits cleared: the canonical word, a term the
spec calls its own (R58, D8). -/
def Obligations.EncodeOfDecodeIsTheCanonicalWord : Prop :=
  ∀ w : InstrWord, encode (decode w) = w &&& ~~~(ignoredBits (decodeFields w).opcode)

/-- Every well-formed instruction, with every operand its encoding admits, is what its encoding decodes to. -/
def Obligations.DecodeOfEncodeIsTheInstruction : Prop :=
  ∀ i : Instr, i.wf = true → decode (encode i) = i

/-- Every word decodes to a well-formed instruction whose opcode is bits 15 to 12 of the word. -/
def Obligations.EveryWordDecodesWellFormed : Prop :=
  ∀ w : InstrWord, (decode w).wf = true ∧ (decode w).opcode.val = w.toNat / 4096

/-- Words written out bit by bit from R52 to R54 and R60, at least one of each family. -/
def Obligations.SampleWordsDecode : Prop :=
  decode 0b0000010000001000 = .lb 2 1 ∧
  decode 0b0001000000011000 = .sb 0 3 ∧
  decode 0b0010001010011000 = .add 1 2 3 ∧
  decode 0b0011001010011000 = .sub 1 2 3 ∧
  decode 0b0100100101000000 = .move 4 5 ∧
  decode 0b0101011111111111 = .addi 3 0x1FF ∧
  decode 0b0110011110101011 = .seti 3 0x1AB ∧
  decode 0b0111010111111101 = .beq 2 509 ∧
  decode 0b1000000111111110 = .bne 0 510 ∧
  decode 0b1001000000000011 = .blt 0 3 ∧
  decode 0b1010101111011101 = .jr 7 ∧
  decode 0b1011000100100011 = .jal 0x123 ∧
  decode 0b1100000000000000 = .undefined1100 ∧
  decode 0b1101000100100011 = .undefined1101 ∧
  decode 0b1110000000000000 = .undefined1110 ∧
  decode 0b1111111111111111 = .undefined1111

/-! ## The step -/

/-- A step with a word at `pc` is `exec` of the decoded instruction, with nothing added; a step with none is the
fault (R141). -/
def Obligations.StepRunsTheDecodedInstruction : Prop :=
  ∀ s : State,
    (∀ w, s.imem[s.pc.toNat]? = some w → step s = exec (decode w) s) ∧
    (s.imem[s.pc.toNat]? = none → step s = .fault (.outOfBoundsFetch s.pc))

/-- R111: the fetch fault is raised exactly when `pc >= IMEM_LEN`, and it carries `pc`. -/
def Obligations.FetchFaultsExactlyOutsideTheImage : Prop :=
  ∀ (s : State) (p : Pc),
    step s = .fault (.outOfBoundsFetch p) ↔ (s.imem.length ≤ s.pc.toNat ∧ p = s.pc)

/-- What every step can come to: it completes, or it is the fetch fault with `pc` outside the image, or it is an SB
to 192 or above; nothing is refused. Rests on D3 for the second fault (the spec's own decision). -/
def Obligations.StepHasExactlyThreeOutcomes : Prop :=
  ∀ s : State,
    (Completes s ∧ s.pc.toNat < s.imem.length) ∨
    (s.imem.length ≤ s.pc.toNat ∧ step s = .fault (.outOfBoundsFetch s.pc)) ∨
    (∃ (w : InstrWord) (a b : Reg), s.imem[s.pc.toNat]? = some w ∧ decode w = .sb a b ∧
      192 ≤ (s.readReg b).toNat ∧
      step s = .fault (.pixelStoreOutOfRange (s.readReg b)
        (((s.readReg b).toNat - 128) / 8) (((s.readReg b).toNat - 128) % 8)))

/-- Placing a word where the step fetches: the next step runs exactly it, nothing but instruction memory changes,
and a word placed inside the image replaces one word only. The model's own device for a `Load` (log entry 2). -/
def Obligations.PlacedWordIsTheOneRun : Prop :=
  ∀ (s : State) (w : InstrWord),
    step (s.withFetchWord 16 w.toNat) = exec (decode w) (s.withFetchWord 16 w.toNat) ∧
    (s.withFetchWord 16 w.toNat).pc = s.pc ∧
    SameRegs s (s.withFetchWord 16 w.toNat) ∧ SameDmem s (s.withFetchWord 16 w.toNat) ∧
    SameButtons s (s.withFetchWord 16 w.toNat) ∧ SamePixels s (s.withFetchWord 16 w.toNat) ∧
    (s.pc.toNat < s.imem.length → ∀ j, j ≠ s.pc.toNat → (s.withFetchWord 16 w.toNat).imem[j]? = s.imem[j]?)

/-! ## Results, with their frames -/

/-- R80. -/
def Obligations.AddWritesTheSumModulo256 : Prop :=
  ∀ (d a b : Reg) (s : State), ∃ t, exec (.add d a b) s = .next t ∧
    (t.readReg d).toNat = ((s.readReg a).toNat + (s.readReg b).toNat) % 256 ∧
    SameRegsBut d s t ∧ t.pc.toNat = (s.pc.toNat + 1) % 8192 ∧ SameMemories s t

/-- R81. The first source is the minuend. -/
def Obligations.SubWritesTheDifferenceModulo256 : Prop :=
  ∀ (d a b : Reg) (s : State), ∃ t, exec (.sub d a b) s = .next t ∧
    ((t.readReg d).toNat : Int) = (((s.readReg a).toNat : Int) - ((s.readReg b).toNat : Int)) % 256 ∧
    SameRegsBut d s t ∧ t.pc.toNat = (s.pc.toNat + 1) % 8192 ∧ SameMemories s t

/-- R82. -/
def Obligations.MoveCopiesTheRegister : Prop :=
  ∀ (d a : Reg) (s : State), ∃ t, exec (.move d a) s = .next t ∧
    t.readReg d = s.readReg a ∧
    SameRegsBut d s t ∧ t.pc.toNat = (s.pc.toNat + 1) % 8192 ∧ SameMemories s t

/-- For the immediates 0 to 511 of the field, R83: the immediate is added as an unsigned number, so only its low 8 bits
matter. It is said of every natural number; for 512 and above, which no encoding holds, the meaning is the model's (log
entry 12). -/
def Obligations.AddiAddsTheUnsignedImmediate : Prop :=
  ∀ (d : Reg) (imm : Nat) (s : State), ∃ t, exec (.addi d imm) s = .next t ∧
    (t.readReg d).toNat = ((s.readReg d).toNat + imm) % 256 ∧
    SameRegsBut d s t ∧ t.pc.toNat = (s.pc.toNat + 1) % 8192 ∧ SameMemories s t ∧
    ∀ imm', imm' % 256 = imm % 256 → exec (.addi d imm') s = .next t

/-- For the immediates 0 to 511 of the field, R84. It is said of every natural number; for 512 and above, which no
encoding holds, the meaning is the model's (log entry 12). -/
def Obligations.SetiWritesTheImmediateModulo256 : Prop :=
  ∀ (d : Reg) (imm : Nat) (s : State), ∃ t, exec (.seti d imm) s = .next t ∧
    (t.readReg d).toNat = imm % 256 ∧
    SameRegsBut d s t ∧ t.pc.toNat = (s.pc.toNat + 1) % 8192 ∧ SameMemories s t

/-- R70. Addresses 128, 129, 130 are the buttons; every other address is the data-memory cell of the same number.
The address is the old value of `src2`, also when `dest` is the same register. -/
def Obligations.LoadByteReadsButtonOrMemory : Prop :=
  ∀ (d b : Reg) (s : State), ∃ t, exec (.lb d b) s = .next t ∧
    (∀ k : Fin 3, (s.readReg b).toNat = 128 + k.val → (t.readReg d).toNat = (s.readButton k).toNat) ∧
    ((s.readReg b).toNat < 128 ∨ 130 < (s.readReg b).toNat → t.readReg d = s.readDmem (s.readReg b)) ∧
    SameRegsBut d s t ∧ t.pc.toNat = (s.pc.toNat + 1) % 8192 ∧ SameMemories s t

/-- SB below 128 (R71, R34): the one cell at the address in `src2` gets the byte in `src1`. -/
def Obligations.StoreByteBelow128WritesDataMemory : Prop :=
  ∀ (a b : Reg) (s : State), (s.readReg b).toNat < 128 → ∃ t, exec (.sb a b) s = .next t ∧
    t.readDmem (s.readReg b) = s.readReg a ∧
    (∀ addr : Byte, addr ≠ s.readReg b → t.readDmem addr = s.readDmem addr) ∧
    SameRegs s t ∧ SameButtons s t ∧ SamePixels s t ∧ t.imem = s.imem ∧
    t.pc.toNat = (s.pc.toNat + 1) % 8192

/-- SB to `128 + 8 * row + col` (R71, R34, R125): that pixel gets the byte in `src1`, and no data memory and no
button changes. -/
def Obligations.StoreByteFrom128To191WritesThePixel : Prop :=
  ∀ (a b : Reg) (s : State) (row col : Fin 8), (s.readReg b).toNat = 128 + 8 * row.val + col.val →
    ∃ t, exec (.sb a b) s = .next t ∧
      t.readPixel row col = s.readReg a ∧
      (∀ r c : Fin 8, (r, c) ≠ (row, col) → t.readPixel r c = s.readPixel r c) ∧
      SameRegs s t ∧ SameDmem s t ∧ SameButtons s t ∧ t.imem = s.imem ∧
      t.pc.toNat = (s.pc.toNat + 1) % 8192

/-- SB to 192 or above faults with the address, the row and the column. The spec's own decision D3 (R34, R113). -/
def Obligations.StoreByteFrom192Faults : Prop :=
  ∀ (a b : Reg) (s : State), 192 ≤ (s.readReg b).toNat →
    exec (.sb a b) s = .fault (.pixelStoreOutOfRange (s.readReg b)
      (((s.readReg b).toNat - 128) / 8) (((s.readReg b).toNat - 128) % 8))

/-- R91. Taken exactly when `x[dest] = x[6]`; the offset is the 9-bit immediate as a signed number, added to the
index of the branch. -/
def Obligations.BeqBranchesWhenEqual : Prop :=
  ∀ (d : Reg) (imm : Nat) (s : State), imm < 512 → ∃ t, exec (.beq d imm) s = .next t ∧
    (s.readReg d = s.readReg 6 →
      (t.pc.toNat : Int) = ((s.pc.toNat : Int) + (if imm ≤ 255 then (imm : Int) else (imm : Int) - 512)) % 8192) ∧
    (s.readReg d ≠ s.readReg 6 → t.pc.toNat = (s.pc.toNat + 1) % 8192) ∧
    SameRegs s t ∧ SameMemories s t

/-- R92. As BEQ, taken exactly when `x[dest]` differs from `x[6]`. -/
def Obligations.BneBranchesWhenDifferent : Prop :=
  ∀ (d : Reg) (imm : Nat) (s : State), imm < 512 → ∃ t, exec (.bne d imm) s = .next t ∧
    (s.readReg d ≠ s.readReg 6 →
      (t.pc.toNat : Int) = ((s.pc.toNat : Int) + (if imm ≤ 255 then (imm : Int) else (imm : Int) - 512)) % 8192) ∧
    (s.readReg d = s.readReg 6 → t.pc.toNat = (s.pc.toNat + 1) % 8192) ∧
    SameRegs s t ∧ SameMemories s t

/-- R93. Taken exactly when `x[dest] < x[6]` as two's-complement numbers. -/
def Obligations.BltBranchesWhenSignedLess : Prop :=
  ∀ (d : Reg) (imm : Nat) (s : State), imm < 512 → ∃ t, exec (.blt d imm) s = .next t ∧
    ((s.readReg d).toInt < (s.readReg 6).toInt →
      (t.pc.toNat : Int) = ((s.pc.toNat : Int) + (if imm ≤ 255 then (imm : Int) else (imm : Int) - 512)) % 8192) ∧
    (¬ (s.readReg d).toInt < (s.readReg 6).toInt → t.pc.toNat = (s.pc.toNat + 1) % 8192) ∧
    SameRegs s t ∧ SameMemories s t

/-- R94. The target is the register's value, absolute; JR does not link. -/
def Obligations.JrJumpsToTheRegister : Prop :=
  ∀ (a : Reg) (s : State), ∃ t, exec (.jr a) s = .next t ∧
    t.pc.toNat = (s.readReg a).toNat ∧ SameRegs s t ∧ SameMemories s t

/-- R95. Register 7 gets the low 8 bits of the index after the JAL, and `pc` the absolute 12-bit target. -/
def Obligations.JalLinksAndJumps : Prop :=
  ∀ (imm : Nat) (s : State), imm < 4096 → ∃ t, exec (.jal imm) s = .next t ∧
    t.pc.toNat = imm ∧ (t.readReg 7).toNat = (s.pc.toNat + 1) % 256 ∧
    SameRegsBut 7 s t ∧ SameMemories s t

/-- R100. Each undefined opcode completes and changes nothing, `pc` included, and so does a step at any word whose bits
15 to 12 are 1100 to 1111. -/
def Obligations.UndefinedOpcodesChangeNothing : Prop :=
  ∀ s : State,
    exec .undefined1100 s = .next s ∧ exec .undefined1101 s = .next s ∧
    exec .undefined1110 s = .next s ∧ exec .undefined1111 s = .next s ∧
    (∀ w : InstrWord, s.imem[s.pc.toNat]? = some w → 12 ≤ w.toNat / 4096 → step s = .next s)

/-- The idioms of R61 the spec derives: `MOVE rd, rd` only advances, `BEQ r6` is taken at every offset, forward and
backward, `BNE r6` and `BLT r6` never are, `SUB rd, rs, rs` clears. The clause of BNE and BLT holds also for numbers that
fit no 9-bit field, for which the meaning is the model's (log entry 12). -/
def Obligations.IdiomsDoWhatTheSpecDerives : Prop :=
  (∀ (d : Reg) (s : State), ∃ t, exec (.move d d) s = .next t ∧ SameRegs s t ∧ SameMemories s t ∧
    t.pc.toNat = (s.pc.toNat + 1) % 8192) ∧
  (∀ (imm : Nat) (s : State), imm < 512 → ∃ t, exec (.beq 6 imm) s = .next t ∧ SameRegs s t ∧ SameMemories s t ∧
    (t.pc.toNat : Int) = ((s.pc.toNat : Int) + (if imm ≤ 255 then (imm : Int) else (imm : Int) - 512)) % 8192) ∧
  (∀ (imm : Nat) (s : State), ∃ t, exec (.bne 6 imm) s = .next t ∧ exec (.blt 6 imm) s = .next t ∧
    SameRegs s t ∧ SameMemories s t ∧ t.pc.toNat = (s.pc.toNat + 1) % 8192) ∧
  (∀ (d a : Reg) (s : State), ∃ t, exec (.sub d a a) s = .next t ∧ t.readReg d = 0)

/-! ## Whole-machine rules -/

/-- No step writes the button latch or instruction memory (R18, R44), and only SB changes data memory or a pixel
(R17, R19). -/
def Obligations.OnlyStoresChangeMemoryAndNothingChangesButtonsOrImage : Prop :=
  ∀ s t : State, step s = .next t →
    SameButtons s t ∧ t.imem = s.imem ∧
    (∀ w, s.imem[s.pc.toNat]? = some w → (∀ a b, decode w ≠ .sb a b) → SameDmem s t ∧ SamePixels s t)

/-- A byte stored below 128 is what a load from the same address register gives (R35, R41). -/
def Obligations.StoredByteIsLoadedBack : Prop :=
  ∀ (a b d : Reg) (s : State), (s.readReg b).toNat < 128 →
    ∃ t u, exec (.sb a b) s = .next t ∧ exec (.lb d b) t = .next u ∧ u.readReg d = s.readReg a

/-- A byte stored at 128 to 191 is never loaded back: no load from any address gives another byte than before the
store (R35). -/
def Obligations.PixelStoreChangesNoLoad : Prop :=
  ∀ (a b : Reg) (s : State), 128 ≤ (s.readReg b).toNat → (s.readReg b).toNat < 192 →
    ∃ t, exec (.sb a b) s = .next t ∧
      ∀ (d r : Reg), ∃ u v, exec (.lb d r) s = .next u ∧ exec (.lb d r) t = .next v ∧ v.readReg d = u.readReg d

/-- In every state that meets the invariant, LB from 131 to 255 gives 0 (R35). -/
def Obligations.LoadsAbove130GiveZero : Prop :=
  ∀ (d b : Reg) (s : State), s.Inv → 131 ≤ (s.readReg b).toNat →
    ∃ t, exec (.lb d b) s = .next t ∧ t.readReg d = 0

/-- A JAL at index 0 to 254, and a JR through register 7 in any later state in which register 7 is unchanged, come
back to the index after the JAL (R96). -/
def Obligations.CallReturnsToTheNextIndex : Prop :=
  ∀ (imm : Nat) (s : State), imm < 4096 → s.pc.toNat ≤ 254 →
    ∃ t, exec (.jal imm) s = .next t ∧
      ∀ u : State, u.readReg 7 = t.readReg 7 →
        ∃ v, exec (.jr 7) u = .next v ∧ v.pc.toNat = s.pc.toNat + 1

/-- No instruction reads the pixel matrix: with any other picture the step does the same to everything else and
ends in the same fault (R19). -/
def Obligations.PicturesDoNotInfluenceAStep : Prop :=
  ∀ (s : State) (p : Vector (Vector Byte 8) 8),
    (∀ t, step s = .next t → ∃ q, step { s with pix := p } = .next { t with pix := q }) ∧
    (∀ f, step s = .fault f → step { s with pix := p } = .fault f)

/-- The buttons reach a program through LB from 128 to 130 only: any other step does the same under every pattern
(R18, R33, R115). -/
def Obligations.ButtonsInfluenceOnlyButtonLoads : Prop :=
  ∀ (s : State) (p : Vector Bit 3),
    (∀ w d b, s.imem[s.pc.toNat]? = some w → decode w = .lb d b →
      (s.readReg b).toNat < 128 ∨ 130 < (s.readReg b).toNat) →
    (∀ t, step s = .next t → step { s with btn := p } = .next { t with btn := p }) ∧
    (∀ f, step s = .fault f → step { s with btn := p } = .fault f)

/-- With an image of at most 4096 words, no `pc` inside the image is ever the result of a wrap: a successor inside the
image is the integer R14's table gives with no wrap. Every successor is at most 4350 or at least 7936, and in the second
case, where a branch went below index 0, the next fetch faults (R15, which the spec derives from its decision D2, log
entry 4). -/
def Obligations.WrapNeverLandsInsideTheImage : Prop :=
  ∀ s t : State, s.Inv → step s = .next t →
    (t.pc.toNat < t.imem.length →
      ∀ w, s.imem[s.pc.toNat]? = some w → (t.pc.toNat : Int) = unwrappedSuccessor (decode w) s) ∧
    (t.pc.toNat ≤ 4350 ∨ 7936 ≤ t.pc.toNat) ∧
    (7936 ≤ t.pc.toNat → step t = .fault (.outOfBoundsFetch t.pc))

/-- The steps that change nothing are exactly the four kinds R151 derives. -/
def Obligations.FixedPointsAreExactlyTheFourKinds : Prop :=
  ∀ s : State, step s = .next s ↔ ∃ w, s.imem[s.pc.toNat]? = some w ∧ holdsStill (decode w) s = true

/-! ## The invariant -/

/-- The reset state is zero everywhere with an empty image, it is what loading an empty text gives, and it meets the
invariant. The empty image is the model's choice of a starting image (log entry 1). -/
def Obligations.ResetStateMeetsInvariant : Prop :=
  State.reset.Inv ∧ load [] = .ok State.reset ∧ State.reset.pc = 0 ∧
  (∀ r, State.reset.readReg r = 0) ∧ (∀ a, State.reset.readDmem a = 0) ∧
  (∀ k, State.reset.readButton k = 0) ∧ (∀ r c, State.reset.readPixel r c = 0)

/-- Every step keeps the invariant: canonical data memory with cells 128 to 255 clear, and an image of at most 4096
words. -/
def Obligations.StepKeepsTheInvariant : Prop :=
  ∀ s t : State, s.Inv → step s = .next t → t.Inv

/-- Every host event keeps the invariant, and every successful `Load` starts with it. -/
def Obligations.EveryEventKeepsTheInvariant : Prop :=
  (∀ (s t : State) (fuel : Nat) (e : Event) (a : Answer), s.Inv → e.run fuel s = some (t, a) → t.Inv) ∧
  (∀ (source : List Char) (s : State), load source = .ok s → s.Inv)

/-- Every state a machine can come to, by any `Load` and any events after it, meets the invariant. -/
def Obligations.ReachableStatesMeetTheInvariant : Prop :=
  ∀ s : State, Reachable s → s.Inv

/-! ## Reset and load -/

/-- R143: `Reset` cannot fail, zeroes everything and leaves instruction memory. -/
def Obligations.ResetZeroesAllButTheImage : Prop :=
  ∀ (s : State) (fuel : Nat), ∃ t, Event.reset.run fuel s = some (t, .done) ∧
    t.pc = 0 ∧ (∀ r, t.readReg r = 0) ∧ (∀ a, t.readDmem a = 0) ∧ (∀ k, t.readButton k = 0) ∧
    (∀ r c, t.readPixel r c = 0) ∧ t.imem = s.imem

/-- R144: `Reset` leaves instruction memory as it was; after a `Load` and any number of steps it gives the state right
after the `Load` again, so the same first instruction is fetched. -/
def Obligations.ResetRestartsTheLoadedProgram : Prop :=
  (∀ s : State, s.hostReset.imem = s.imem) ∧
  ∀ (source : List Char) (s : State) (n : Nat), load source = .ok s → (stepN n s).1.hostReset = s

/-- R146: a successful `Load`, in whatever state, gives the whole new image and zero everywhere else. -/
def Obligations.SuccessfulLoadReplacesTheImageAndResets : Prop :=
  ∀ (source : List Char) (image : List InstrWord) (u : State) (fuel : Nat), parseImage source = .ok image →
    ∃ t, (Event.load source).run fuel u = some (t, .done) ∧ t.imem = image ∧
      t.pc = 0 ∧ (∀ r, t.readReg r = 0) ∧ (∀ a, t.readDmem a = 0) ∧ (∀ k, t.readButton k = 0) ∧
      (∀ r c, t.readPixel r c = 0)

/-- R147: a failed `Load` changes nothing; and a stream with a character that is neither a separator nor a
hexadecimal digit does fail. The second clause rests on which characters separate (log entry 3) and on the spec's own
decision D7, which takes no prefix, sign or underscore (log entry 13). -/
def Obligations.FailedLoadChangesNothing : Prop :=
  (∀ (source : List Char) (e : LoadError) (u : State) (fuel : Nat), load source = .error e →
    (Event.load source).run fuel u = some (u, .loadFailed e)) ∧
  (∀ (source : List Char) (c : Char), c ∈ source → isSeparator c = false → hexDigit c = none →
    load source = .error .loadError)

/-- Loading the text of an image, each word as four upper-case digits and a space, gives that image, if it has at most
4096 words; the text of a longer one fails (R145, R146; the bound is the spec's decision D2, R148 c, log entry 4). -/
def Obligations.LoadOfAnImageTextGivesTheImage : Prop :=
  ∀ image : List InstrWord,
    (image.length ≤ 4096 → load (textOfImage image) = .ok (State.afterLoad image)) ∧
    (4096 < image.length → load (textOfImage image) = .error .loadError)

/-- R145, R148: a stream of hexadecimal digits and separators loads as the numbers of its tokens, by place value. The
digits are `0-9`, `a-f`, `A-F`; any run of separators stands before, between and after tokens; the last token may end the
stream; leading zeros change nothing, being worth 0. A token above 0xFFFF, or more than 4096 tokens, fails the load. Which
characters separate is log entry 3; the refusals are the spec's decisions D2 and D7 (log entries 4 and 13). -/
def Obligations.LoadReadsTokensByPlaceValue : Prop :=
  (∀ (c : Char) (d : Nat), hexDigit c = some d ↔
    (['0', '1', '2', '3', '4', '5', '6', '7', '8', '9', 'a', 'b', 'c', 'd', 'e', 'f'][d]? = some c ∨
      ['0', '1', '2', '3', '4', '5', '6', '7', '8', '9', 'A', 'B', 'C', 'D', 'E', 'F'][d]? = some c)) ∧
  (∀ c : Char, isSeparator c = true ↔ c ∈ [' ', '\t', '\n', '\r']) ∧
  (∀ (lead : List Char) (pieces : List (List Char × List Char)) (last : List Char),
    (∀ c ∈ lead, isSeparator c = true) →
    (∀ p ∈ pieces, IsToken p.1 ∧ p.2 ≠ [] ∧ ∀ c ∈ p.2, isSeparator c = true) →
    (last = [] ∨ IsToken last) →
    let tokens := pieces.map (·.1) ++ (if last = [] then [] else [last])
    let source := lead ++ pieces.flatMap (fun p => p.1 ++ p.2) ++ last
    (tokens.length ≤ 4096 → (∀ token ∈ tokens, tokenNumber token ≤ 0xFFFF) →
      load source = .ok (State.afterLoad (tokens.map (fun token => BitVec.ofNat 16 (tokenNumber token))))) ∧
    (4096 < tokens.length → load source = .error .loadError) ∧
    ((∃ token ∈ tokens, 0xFFFF < tokenNumber token) → load source = .error .loadError))

/-! ## The other host events -/

/-- R123: three characters `0` or `1` become the three buttons, leftmost first, and nothing else changes; any other
pattern fails and nothing changes. -/
def Obligations.SetButtonsWritesTheLatchOrNothing : Prop :=
  ∀ (s : State) (pattern : List Char) (fuel : Nat),
    (pattern.length = 3 ∧ (∀ c ∈ pattern, c = '0' ∨ c = '1') →
      ∃ t, (Event.setButtons pattern).run fuel s = some (t, .done) ∧
        (∀ k : Fin 3, t.readButton k = if pattern[k.val]? = some '1' then 1 else 0) ∧
        t.pc = s.pc ∧ SameRegs s t ∧ SameDmem s t ∧ SamePixels s t ∧ t.imem = s.imem) ∧
    (¬ (pattern.length = 3 ∧ (∀ c ∈ pattern, c = '0' ∨ c = '1')) →
      (Event.setButtons pattern).run fuel s = some (s, .buttonsFailed .buttonError))

/-- R129: `Observe` changes nothing and answers `pc`, instruction memory, the 8 registers, the 256 data-memory cells,
the 3 buttons and the 64 pixels. So two states that meet the invariant and have the same snapshot are the same, which
rests on R24 and on the canonical form the model holds data memory in (log entry 7). -/
def Obligations.SnapshotDeterminesTheState : Prop :=
  (∀ (s : State) (fuel : Nat), Event.observe.run fuel s = some (s, .snapshot s.observe)) ∧
  (∀ s : State, s.observe.pc = s.pc ∧ s.observe.imem = s.imem ∧
    (∀ r : Reg, s.observe.regs[r.val]? = some (s.readReg r)) ∧
    (∀ a : Byte, s.observe.dmem[a.toNat]? = some (s.readDmem a)) ∧
    (∀ k : Fin 3, s.observe.btn[k.val]? = some (s.readButton k)) ∧
    (∀ r c : Fin 8, (s.observe.pix[r.val]?.bind (·[c.val]?)) = some (s.readPixel r c))) ∧
  (∀ s t : State, s.Inv → t.Inv → s.observe = t.observe → s = t)

/-- `m + n` steps are `m` steps and then `n`; after a fault no further step is made (R142; stopping at the fault is
the spec's decision D12). -/
def Obligations.StepNComposes : Prop :=
  ∀ (m n : Nat) (s : State),
    ((stepN m s).2 = .completed → stepN (m + n) s = stepN n (stepN m s).1) ∧
    ((stepN m s).2 ≠ .completed → stepN (m + n) s = stepN m s)

/-- A fault repeats with the state unchanged, however often the host steps and whatever buttons it sets (R112, the
spec's decision D4). -/
def Obligations.FaultRepeatsUnderStepsAndButtons : Prop :=
  ∀ (s : State) (f : Fault), step s = .fault f →
    (∀ n, stepN (n + 1) s = (s, .fault f)) ∧
    (∀ pattern t, s.setButtons pattern = .ok t → step t = .fault f)

/-- At an undefined opcode every one of `n` steps completes and changes nothing, and `RunUntil` to any other index
never returns (R100, R128). -/
def Obligations.UndefinedOpcodeStallsForever : Prop :=
  ∀ (s : State) (w : InstrWord), s.imem[s.pc.toNat]? = some w → 12 ≤ w.toNat / 4096 →
    (∀ n, stepN n s = (s, .completed)) ∧ (∀ b : Int, b ≠ s.pc.toNat → RunUntilHangs b s)

/-- `RunUntil(b)` completes with state `t` exactly when some number of steps, at least one, completes in `t` with
`pc = b` and no smaller number, at least one, has `pc = b` (R128). Looking at `RunUntil` for a given number of steps is the
model's form (log entry 10). -/
def Obligations.RunUntilStopsAtTheFirstArrival : Prop :=
  ∀ (b : Int) (fuel : Nat) (s t : State),
    runUntil b fuel s = some (t, .completed) ↔
      ∃ n, 0 < n ∧ n ≤ fuel ∧ stepN n s = (t, .completed) ∧ (t.pc.toNat : Int) = b ∧
        ∀ m, 0 < m → m < n → ((stepN m s).1.pc.toNat : Int) ≠ b

/-- To the state, `WatchN(n)` is `StepN(n)`. The callback gets the snapshot after every completed step with index 0, 50,
100 and so on below `n`, also when a later step faults; when all `n` steps complete there is no other call; when the step
with index `k` faults there is none for a later step, and at most one for the faulting step itself, with the unchanged
state, which the spec leaves open (log entry 6). The pause is left out (log entry 11) (R152). -/
def Obligations.WatchNIsStepNWithACallEveryFiftySteps : Prop :=
  ∀ (n : Nat) (s : State),
    (watchN n s).1 = stepN n s ∧
    (∀ j, 50 * j < n → (stepN (50 * j + 1) s).2 = .completed →
      (watchN n s).2[j]? = some (stepN (50 * j + 1) s).1.observe) ∧
    ((stepN n s).2 = .completed → (watchN n s).2.length = (n + 49) / 50) ∧
    (∀ k f, k < n → (stepN k s).2 = .completed → step (stepN k s).1 = .fault f →
      (watchN n s).2.length = (k + 49) / 50 ∨
      (k % 50 = 0 ∧ (watchN n s).2.length = (k + 49) / 50 + 1 ∧
        (watchN n s).2[(k + 49) / 50]? = some (stepN k s).1.observe))
end

