-- ==== Sys2Proof/Laws/Decode.lean ====
section
/-!
SUPPORT. The small lemmas of the decoder and the encoder: the number in a bit range, the width of each field, and the
number an encoded word holds.
-/

namespace Sys2Proof

/-- A bit range of `n` bits holds a number below `2 ^ n`. -/
theorem bits_lt (w : InstrWord) (hi lo : Nat) : bits w hi lo < 2 ^ (hi - lo + 1) :=
  Nat.mod_lt _ (Nat.two_pow_pos _)

/-- Bits 15 to 12 of a word. -/
theorem bits_15_12 (w : InstrWord) : bits w 15 12 = w.toNat / 4096 := by
  have := w.isLt
  simp only [bits]
  omega

/-- The low bits of a word. -/
theorem bits_zero (w : InstrWord) (hi : Nat) : bits w hi 0 = w.toNat % 2 ^ (hi + 1) := by
  simp only [bits, Nat.pow_zero, Nat.div_one, Nat.sub_zero]

theorem decodeFields_opcode_val (w : InstrWord) : (decodeFields w).opcode.val = w.toNat / 4096 := by
  have := w.isLt
  simp only [decodeFields, bits_15_12, Fin.val_ofNat]
  omega

/-- The number in an R-format word. -/
theorem wordR_toNat (op : Fin 16) (d a b : Reg) :
    (wordR op d a b).toNat = op.val * 4096 + d.val * 512 + a.val * 64 + b.val * 8 := by
  simp only [wordR, BitVec.toNat_ofNat]
  omega

/-- The number in an I-format word whose immediate fits. -/
theorem wordI_toNat (op : Fin 16) (d : Reg) {imm : Nat} (h : imm < 512) :
    (wordI op d imm).toNat = op.val * 4096 + d.val * 512 + imm := by
  simp only [wordI, BitVec.toNat_ofNat]
  omega

/-- The number in a JAL-format word whose immediate fits. -/
theorem wordJal_toNat (op : Fin 16) {imm : Nat} (h : imm < 4096) :
    (wordJal op imm).toNat = op.val * 4096 + imm := by
  simp only [wordJal, BitVec.toNat_ofNat]
  omega

/-- The top four bits of each format are the opcode. -/
theorem wordR_opcode (op : Fin 16) (d a b : Reg) : (wordR op d a b).toNat / 4096 = op.val := by
  rw [wordR_toNat]
  omega

theorem wordI_opcode (op : Fin 16) (d : Reg) {imm : Nat} (h : fitsImm9 imm = true) :
    (wordI op d imm).toNat / 4096 = op.val := by
  have h : imm < 512 := of_decide_eq_true h
  rw [wordI_toNat op d h]
  omega

theorem wordJal_opcode (op : Fin 16) {imm : Nat} (h : fitsImm12 imm = true) :
    (wordJal op imm).toNat / 4096 = op.val := by
  have h : imm < 4096 := of_decide_eq_true h
  rw [wordJal_toNat op h]
  omega

/-- The fields decoded from an R-format word. -/
theorem decodeFields_wordR (op : Fin 16) (d a b : Reg) :
    let f := decodeFields (wordR op d a b)
    f.opcode = op ∧ f.dest = d ∧ f.src1 = a ∧ f.src2 = b := by
  simp only [decodeFields, bits, wordR_toNat, Fin.ext_iff, Fin.val_ofNat]
  omega

/-- The fields decoded from an I-format word whose immediate fits and whose opcode is not JAL's. -/
theorem decodeFields_wordI (op : Fin 16) (d : Reg) {imm : Nat} (h : imm < 512) (ho : op.val ≠ 11) :
    let f := decodeFields (wordI op d imm)
    f.opcode = op ∧ f.dest = d ∧ f.imm = imm := by
  simp only [decodeFields, bits, wordI_toNat op d h, Fin.ext_iff, Fin.val_ofNat]
  refine ⟨by omega, by omega, ?_⟩
  rw [if_neg (by omega)]
  omega

/-- The fields decoded from a JAL-format word whose immediate fits. -/
theorem decodeFields_wordJal {imm : Nat} (h : imm < 4096) :
    let f := decodeFields (wordJal 11 imm)
    f.opcode = 11 ∧ f.imm = imm := by
  have hv : (11 : Fin 16).val = 11 := rfl
  simp only [decodeFields, bits, wordJal_toNat 11 h, Fin.ext_iff, Fin.val_ofNat, hv]
  refine ⟨by omega, ?_⟩
  rw [if_pos (by omega)]
  omega

end Sys2Proof
end

