-- ==== Sys2Proof/Laws/Memory.lean ====
section
/-!
SUPPORT. The laws of the memory list: a read after a write, the canonical form, which every operation keeps, and that
canonical memories that read alike are equal.
-/

namespace Sys2Proof.Machine

@[simp] theorem Memory.read_nil (a : Nat) : Memory.read [] a = 0 := rfl

theorem Memory.read_cons (b : Nat) (v : Byte) (rest : Memory) (a : Nat) :
    Memory.read ((b, v) :: rest) a = if b = a then v else Memory.read rest a := rfl

theorem Memory.read_erase (m : Memory) (a b : Nat) :
    Memory.read (Memory.erase m a) b = if b = a then 0 else Memory.read m b := by
  induction m with
  | nil => simp [Memory.erase]
  | cons c rest ih =>
    obtain ⟨d, u⟩ := c
    unfold Memory.erase at ih ⊢
    by_cases hd : d = a
    · subst hd
      simp only [List.filter_cons, bne_self_eq_false, Bool.false_eq_true, if_false, ih, Memory.read_cons]
      by_cases hb : b = d
      · simp [hb]
      · simp [hb, Ne.symm hb]
    · simp only [List.filter_cons, bne_iff_ne.mpr hd, if_true, Memory.read_cons, ih]
      by_cases hb : b = a
      · subst hb; simp [hd]
      · simp [hb]

theorem Memory.read_insert (m : Memory) (a : Nat) (v : Byte) (b : Nat) (h : ∀ c ∈ m, c.1 ≠ a) :
    Memory.read (Memory.insert m a v) b = if b = a then v else Memory.read m b := by
  induction m with
  | nil => simp [Memory.insert, Memory.read_cons, eq_comm]
  | cons c rest ih =>
    obtain ⟨d, u⟩ := c
    have hd : d ≠ a := h (d, u) (by simp)
    have ih := ih (fun c hc => h c (by simp [hc]))
    unfold Memory.insert
    split
    · simp only [Memory.read_cons]
      by_cases hb : b = a
      · simp [hb]
      · simp [hb, Ne.symm hb]
    · simp only [Memory.read_cons, ih]
      by_cases hb : b = a
      · subst hb; simp [hd]
      · simp [hb]

theorem Memory.erase_ne (m : Memory) (a : Nat) : ∀ c ∈ Memory.erase m a, c.1 ≠ a := by
  intro c hc
  have := (List.mem_filter.mp hc).2
  simpa using this

/-- The byte at an address after a write: the byte written at its address, what was there elsewhere. -/
theorem Memory.read_write (m : Memory) (a : Nat) (v : Byte) (b : Nat) :
    Memory.read (Memory.write m a v) b = if b = a then v else Memory.read m b := by
  unfold Memory.write
  split
  · next h => simp only [Memory.read_erase, h]
  · rw [Memory.read_insert _ _ _ _ (Memory.erase_ne m a), Memory.read_erase]
    by_cases hb : b = a <;> simp [hb]

/-! ## The canonical form -/

theorem Memory.wfFrom_cons (lo a : Nat) (v : Byte) (rest : Memory) :
    Memory.wfFrom lo ((a, v) :: rest) = true ↔
      lo ≤ a ∧ a < 256 ∧ v ≠ 0 ∧ Memory.wfFrom (a + 1) rest = true := by
  simp [Memory.wfFrom, and_assoc, Config.dmemSize, Config.unlistedCell]

theorem Memory.wfFrom_mono {lo lo' : Nat} {m : Memory} (hl : lo' ≤ lo) (h : Memory.wfFrom lo m = true) :
    Memory.wfFrom lo' m = true := by
  cases m with
  | nil => rfl
  | cons c rest =>
    obtain ⟨a, v⟩ := c
    rw [Memory.wfFrom_cons] at h ⊢
    exact ⟨by omega, h.2⟩

theorem Memory.wfFrom_erase {lo : Nat} {m : Memory} (a : Nat) (h : Memory.wfFrom lo m = true) :
    Memory.wfFrom lo (Memory.erase m a) = true := by
  induction m generalizing lo with
  | nil => rfl
  | cons c rest ih =>
    obtain ⟨d, u⟩ := c
    obtain ⟨h1, h2, h3, h4⟩ := (Memory.wfFrom_cons ..).mp h
    have ih := ih h4
    unfold Memory.erase at ih ⊢
    by_cases hd : d = a
    · subst hd
      simp only [List.filter_cons, bne_self_eq_false, Bool.false_eq_true, if_false]
      exact Memory.wfFrom_mono (by omega) ih
    · simp only [List.filter_cons, bne_iff_ne.mpr hd, if_true]
      exact (Memory.wfFrom_cons ..).mpr ⟨h1, h2, h3, ih⟩

theorem Memory.wfFrom_insert {lo : Nat} {m : Memory} {a : Nat} {v : Byte} (h : Memory.wfFrom lo m = true)
    (hne : ∀ c ∈ m, c.1 ≠ a) (hlo : lo ≤ a) (ha : a < 256) (hv : v ≠ 0) :
    Memory.wfFrom lo (Memory.insert m a v) = true := by
  induction m generalizing lo with
  | nil => exact (Memory.wfFrom_cons ..).mpr ⟨hlo, ha, hv, rfl⟩
  | cons c rest ih =>
    obtain ⟨d, u⟩ := c
    obtain ⟨h1, h2, h3, h4⟩ := (Memory.wfFrom_cons ..).mp h
    have hd : d ≠ a := hne (d, u) (by simp)
    unfold Memory.insert
    split
    · exact (Memory.wfFrom_cons ..).mpr ⟨hlo, ha, hv, (Memory.wfFrom_cons ..).mpr ⟨by omega, h2, h3, h4⟩⟩
    · exact (Memory.wfFrom_cons ..).mpr ⟨h1, h2, h3, ih h4 (fun c hc => hne c (by simp [hc])) (by omega)⟩

/-- A write keeps the canonical form. -/
theorem Memory.wf_write {m : Memory} (h : Memory.wf m = true) {a : Nat} (ha : a < 256) (v : Byte) :
    Memory.wf (Memory.write m a v) = true := by
  unfold Memory.write
  split
  · exact Memory.wfFrom_erase a h
  · next hv => exact Memory.wfFrom_insert (Memory.wfFrom_erase a h) (Memory.erase_ne m a) (by omega) ha hv

/-- The memory of the reset state is canonical. -/
theorem Memory.wf_reset : Memory.wf State.reset.dmem = true := rfl

theorem Memory.read_eq_zero_of_lt {lo : Nat} {m : Memory} (h : Memory.wfFrom lo m = true) {a : Nat} (ha : a < lo) :
    Memory.read m a = 0 := by
  induction m generalizing lo with
  | nil => rfl
  | cons c rest ih =>
    obtain ⟨d, u⟩ := c
    obtain ⟨h1, -, -, h4⟩ := (Memory.wfFrom_cons ..).mp h
    rw [Memory.read_cons, if_neg (by omega)]
    exact ih h4 (by omega)

/-- Canonical memories that read alike at every address are the same list. -/
theorem Memory.ext_of_wfFrom {lo : Nat} {m m' : Memory} (h : Memory.wfFrom lo m = true)
    (h' : Memory.wfFrom lo m' = true) (hr : ∀ a, a < 256 → Memory.read m a = Memory.read m' a) : m = m' := by
  induction m generalizing lo m' with
  | nil =>
    cases m' with
    | nil => rfl
    | cons c' rest' =>
      obtain ⟨d', u'⟩ := c'
      obtain ⟨-, hd', hu', -⟩ := (Memory.wfFrom_cons ..).mp h'
      exact absurd (by simpa [Memory.read_cons] using (hr d' hd').symm) hu'
  | cons c rest ih =>
    obtain ⟨d, u⟩ := c
    obtain ⟨-, hd, hu, hrest⟩ := (Memory.wfFrom_cons ..).mp h
    cases m' with
    | nil => exact absurd (by simpa [Memory.read_cons] using hr d hd) hu
    | cons c' rest' =>
      obtain ⟨d', u'⟩ := c'
      obtain ⟨-, hd', hu', hrest'⟩ := (Memory.wfFrom_cons ..).mp h'
      have hdd : d = d' := by
        rcases Nat.lt_trichotomy d d' with hlt | heq | hgt
        · have := hr d hd
          rw [Memory.read_cons, Memory.read_cons, if_pos rfl, if_neg (by omega),
            Memory.read_eq_zero_of_lt hrest' (by omega)] at this
          exact absurd this hu
        · exact heq
        · have := hr d' hd'
          rw [Memory.read_cons, Memory.read_cons, if_pos rfl, if_neg (by omega),
            Memory.read_eq_zero_of_lt hrest (by omega)] at this
          exact absurd this.symm hu'
      subst hdd
      have huu : u = u' := by simpa [Memory.read_cons] using hr d hd
      subst huu
      rw [ih hrest hrest' fun a ha => ?_]
      have := hr a ha
      by_cases hda : d = a
      · subst hda
        rw [Memory.read_eq_zero_of_lt hrest (by omega), Memory.read_eq_zero_of_lt hrest' (by omega)]
      · simpa [Memory.read_cons, hda] using this

/-! ## Cells 128 to 255 -/

/-- A memory with no cell at 128 or above reads 0 there. -/
theorem Memory.read_eq_zero_of_upperDmemClear {m : Memory} (h : upperDmemClear m = true) {a : Nat} (ha : 128 ≤ a) :
    Memory.read m a = 0 := by
  induction m with
  | nil => rfl
  | cons c rest ih =>
    obtain ⟨d, u⟩ := c
    simp only [upperDmemClear, List.all_cons, Bool.and_eq_true, decide_eq_true_eq] at h ih
    rw [Memory.read_cons, if_neg (by have := h.1; simp only [Config.pixelBase] at this; omega)]
    exact ih h.2

theorem Memory.mem_insert {m : Memory} {a : Nat} {v : Byte} {c : Host.Cell} (h : c ∈ Memory.insert m a v) :
    c = (a, v) ∨ c ∈ m := by
  induction m with
  | nil => simpa [Memory.insert] using h
  | cons e rest ih =>
    obtain ⟨d, u⟩ := e
    unfold Memory.insert at h
    split at h
    · simpa using h
    · rcases List.mem_cons.mp h with h | h
      · exact .inr (by simp [h])
      · rcases ih h with h | h
        · exact .inl h
        · exact .inr (by simp [h])

/-- A write below 128 lists no cell at 128 or above. -/
theorem Memory.upperDmemClear_write {m : Memory} (h : upperDmemClear m = true) {a : Nat} (ha : a < 128) (v : Byte) :
    upperDmemClear (Memory.write m a v) = true := by
  have he : ∀ c ∈ Memory.erase m a, c.1 < 128 := fun c hc =>
    by simpa using List.all_eq_true.mp h c (List.mem_filter.mp hc).1
  refine List.all_eq_true.mpr fun c hc => ?_
  simp only [decide_eq_true_eq]
  unfold Memory.write at hc
  split at hc
  · exact he c hc
  · rcases Memory.mem_insert hc with rfl | hc
    · exact ha
    · exact he c hc

/-- The cell at an address after a write of a cell (R17). -/
@[simp] theorem State.readDmem_writeDmem (s : State) (a v b : Byte) :
    (s.writeDmem a v).readDmem b = if b = a then v else s.readDmem b := by
  simp only [State.readDmem, State.writeDmem, Memory.read_write, BitVec.toNat_inj]

end Sys2Proof.Machine
end

