-- ==== Sys2Proof/Laws/State.lean ====
section
/-!
SUPPORT. One lemma per field of State and update of it, and what each accessor reads after each update.
-/

namespace Sys2Proof.Machine

variable (s : State)

@[simp] theorem State.setPc_pc (t : Pc) : (s.setPc t).pc = t := rfl
@[simp] theorem State.setPc_x (t : Pc) : (s.setPc t).x = s.x := rfl
@[simp] theorem State.setPc_dmem (t : Pc) : (s.setPc t).dmem = s.dmem := rfl
@[simp] theorem State.setPc_btn (t : Pc) : (s.setPc t).btn = s.btn := rfl
@[simp] theorem State.setPc_pix (t : Pc) : (s.setPc t).pix = s.pix := rfl
@[simp] theorem State.setPc_imem (t : Pc) : (s.setPc t).imem = s.imem := rfl

@[simp] theorem State.writeReg_pc (r : Reg) (v : Byte) : (s.writeReg r v).pc = s.pc := rfl
@[simp] theorem State.writeReg_x (r : Reg) (v : Byte) : (s.writeReg r v).x = s.x.set r v := rfl
@[simp] theorem State.writeReg_dmem (r : Reg) (v : Byte) : (s.writeReg r v).dmem = s.dmem := rfl
@[simp] theorem State.writeReg_btn (r : Reg) (v : Byte) : (s.writeReg r v).btn = s.btn := rfl
@[simp] theorem State.writeReg_pix (r : Reg) (v : Byte) : (s.writeReg r v).pix = s.pix := rfl
@[simp] theorem State.writeReg_imem (r : Reg) (v : Byte) : (s.writeReg r v).imem = s.imem := rfl

@[simp] theorem State.writeDmem_pc (a v : Byte) : (s.writeDmem a v).pc = s.pc := rfl
@[simp] theorem State.writeDmem_x (a v : Byte) : (s.writeDmem a v).x = s.x := rfl
@[simp] theorem State.writeDmem_dmem (a v : Byte) : (s.writeDmem a v).dmem = Memory.write s.dmem a.toNat v := rfl
@[simp] theorem State.writeDmem_btn (a v : Byte) : (s.writeDmem a v).btn = s.btn := rfl
@[simp] theorem State.writeDmem_pix (a v : Byte) : (s.writeDmem a v).pix = s.pix := rfl
@[simp] theorem State.writeDmem_imem (a v : Byte) : (s.writeDmem a v).imem = s.imem := rfl

@[simp] theorem State.writePixel_pc (r c : Fin 8) (v : Byte) : (s.writePixel r c v).pc = s.pc := rfl
@[simp] theorem State.writePixel_x (r c : Fin 8) (v : Byte) : (s.writePixel r c v).x = s.x := rfl
@[simp] theorem State.writePixel_dmem (r c : Fin 8) (v : Byte) : (s.writePixel r c v).dmem = s.dmem := rfl
@[simp] theorem State.writePixel_btn (r c : Fin 8) (v : Byte) : (s.writePixel r c v).btn = s.btn := rfl
@[simp] theorem State.writePixel_pix (r c : Fin 8) (v : Byte) : (s.writePixel r c v).pix = s.pix.set r (s.pix[r].set c v) := rfl
@[simp] theorem State.writePixel_imem (r c : Fin 8) (v : Byte) : (s.writePixel r c v).imem = s.imem := rfl

@[simp] theorem State.hostReset_pc : s.hostReset.pc = 0 := rfl
@[simp] theorem State.hostReset_x : s.hostReset.x = Vector.replicate 8 0 := rfl
@[simp] theorem State.hostReset_dmem : s.hostReset.dmem = [] := rfl
@[simp] theorem State.hostReset_btn : s.hostReset.btn = Vector.replicate 3 0 := rfl
@[simp] theorem State.hostReset_pix : s.hostReset.pix = Vector.replicate 8 (Vector.replicate 8 0) := rfl
@[simp] theorem State.hostReset_imem : s.hostReset.imem = s.imem := rfl

/-! ## What the accessors read after an update -/

@[simp] theorem State.readReg_setPc (t : Pc) (q : Reg) : (s.setPc t).readReg q = s.readReg q := rfl
@[simp] theorem State.readDmem_setPc (t : Pc) (b : Byte) : (s.setPc t).readDmem b = s.readDmem b := rfl
@[simp] theorem State.readButton_setPc (t : Pc) (k : Fin 3) : (s.setPc t).readButton k = s.readButton k := rfl
@[simp] theorem State.readPixel_setPc (t : Pc) (p q : Fin 8) : (s.setPc t).readPixel p q = s.readPixel p q := rfl
@[simp] theorem State.readDmem_writeReg (r : Reg) (v : Byte) (b : Byte) : (s.writeReg r v).readDmem b = s.readDmem b := rfl
@[simp] theorem State.readButton_writeReg (r : Reg) (v : Byte) (k : Fin 3) : (s.writeReg r v).readButton k = s.readButton k := rfl
@[simp] theorem State.readPixel_writeReg (r : Reg) (v : Byte) (p q : Fin 8) : (s.writeReg r v).readPixel p q = s.readPixel p q := rfl
@[simp] theorem State.nextPc_writeReg (r : Reg) (v : Byte) : (s.writeReg r v).nextPc = s.nextPc := rfl
@[simp] theorem State.readReg_writeDmem (a v : Byte) (q : Reg) : (s.writeDmem a v).readReg q = s.readReg q := rfl
@[simp] theorem State.readButton_writeDmem (a v : Byte) (k : Fin 3) : (s.writeDmem a v).readButton k = s.readButton k := rfl
@[simp] theorem State.readPixel_writeDmem (a v : Byte) (p q : Fin 8) : (s.writeDmem a v).readPixel p q = s.readPixel p q := rfl
@[simp] theorem State.nextPc_writeDmem (a v : Byte) : (s.writeDmem a v).nextPc = s.nextPc := rfl
@[simp] theorem State.readReg_writePixel (r c : Fin 8) (v : Byte) (q : Reg) : (s.writePixel r c v).readReg q = s.readReg q := rfl
@[simp] theorem State.readDmem_writePixel (r c : Fin 8) (v : Byte) (b : Byte) : (s.writePixel r c v).readDmem b = s.readDmem b := rfl
@[simp] theorem State.readButton_writePixel (r c : Fin 8) (v : Byte) (k : Fin 3) : (s.writePixel r c v).readButton k = s.readButton k := rfl
@[simp] theorem State.nextPc_writePixel (r c : Fin 8) (v : Byte) : (s.writePixel r c v).nextPc = s.nextPc := rfl

/-- A register written reads as the value written; every other register as before. -/
@[simp] theorem State.readReg_writeReg (r : Reg) (v : Byte) (q : Reg) :
    (s.writeReg r v).readReg q = if r = q then v else s.readReg q := by
  simp only [State.readReg, State.writeReg, Fin.getElem_fin, Vector.getElem_set, Fin.val_inj]

/-- A pixel written holds the value written; every other pixel what it held. -/
@[simp] theorem State.readPixel_writePixel (r c : Fin 8) (v : Byte) (p q : Fin 8) :
    (s.writePixel r c v).readPixel p q = if r = p ∧ c = q then v else s.readPixel p q := by
  simp only [State.readPixel, State.writePixel, Fin.getElem_fin, Vector.getElem_set, Fin.val_inj]
  by_cases hr : r = p
  · subst hr
    by_cases hc : c = q <;> simp [hc, Fin.val_inj]
  · simp [hr]

end Sys2Proof.Machine
end

