-- ==== Sys2Proof/Laws/Ops.lean ====
section
/-!
SUPPORT. One spec lemma for each conversion and shared operation: what it gives, in numbers, and everything it can
do. Later proofs cite these and do not unfold the operation.
-/

namespace Sys2Proof.Machine

/-! ## Conversions (R5) -/

theorem wrap8_toNat (v : Int) : ((wrap8 v).toNat : Int) = v % 256 := by
  simp only [wrap8, BitVec.toNat_ofInt]
  omega

@[simp] theorem wrap8_natCast_toNat (v : Nat) : (wrap8 (v : Int)).toNat = v % 256 := by
  have := wrap8_toNat v
  omega

theorem wrap13_toNat (v : Int) : ((wrap13 v).toNat : Int) = v % 8192 := by
  simp only [wrap13, BitVec.toNat_ofInt]
  omega

@[simp] theorem wrap13_natCast_toNat (v : Nat) : (wrap13 (v : Int)).toNat = v % 8192 := by
  have := wrap13_toNat v
  omega

@[simp] theorem zext8_toNat (b : Bit) : (zext8 b).toNat = b.toNat := by
  have := b.isLt
  simp only [zext8, BitVec.toNat_setWidth]
  omega

@[simp] theorem zext13_toNat (v : Byte) : (zext13 v).toNat = v.toNat := by
  have := v.isLt
  simp only [zext13, BitVec.toNat_setWidth]
  omega

/-- `signed8` is the two's-complement value of the byte. -/
theorem signed8_eq_toInt (v : Byte) : signed8 v = v.toInt := by
  have := v.isLt
  rw [signed8, BitVec.toInt_eq_toNat_cond]
  split <;> split <;> omega

/-- The offset of a well-formed branch is -256 to 255 (R56). -/
theorem sext9_bounds {v : Nat} (h : v < 512) : -256 ≤ sext9 v ∧ sext9 v ≤ 255 := by
  unfold sext9
  split <;> omega

theorem State.nextPc_toNat (s : State) : s.nextPc.toNat = (s.pc.toNat + 1) % 8192 := by
  have := wrap13_natCast_toNat (s.pc.toNat + 1)
  simpa [State.nextPc] using this

theorem State.linkValue_toNat (s : State) : s.linkValue.toNat = (s.pc.toNat + 1) % 256 := by
  have := wrap8_natCast_toNat (s.pc.toNat + 1)
  simpa [State.linkValue] using this

theorem State.branchTarget_toNat (s : State) (imm : Nat) :
    ((s.branchTarget imm).toNat : Int) = (s.pc.toNat + sext9 imm) % 8192 :=
  wrap13_toNat _

/-- The index after the present one is never the present one. -/
theorem State.nextPc_ne (s : State) : s.nextPc ≠ s.pc := by
  intro h
  have := s.nextPc_toNat
  have := s.pc.isLt
  rw [h] at *
  omega

/-! ## The data space (R33, R34) -/

theorem State.memRead_button (s : State) {addr : Byte} (h : 128 ≤ addr.toNat) (h' : addr.toNat ≤ 130) :
    s.memRead addr = zext8 (s.readButton (Fin.ofNat 3 (addr.toNat - 128))) :=
  if_pos ⟨h, h'⟩

theorem State.memRead_dmem (s : State) {addr : Byte} (h : addr.toNat < 128 ∨ 130 < addr.toNat) :
    s.memRead addr = s.readDmem addr :=
  if_neg (by simp only [Config.buttonBase, Config.buttonLast]; omega)

/-- The load path reads data memory and the buttons, nothing else. -/
theorem State.memRead_congr {s t : State} (addr : Byte) (hd : t.readDmem addr = s.readDmem addr)
    (hb : t.btn = s.btn) : t.memRead addr = s.memRead addr := by
  simp only [State.memRead, State.readButton, hd, hb]

@[simp] theorem State.memRead_setPc (s : State) (t : Pc) (addr : Byte) :
    (s.setPc t).memRead addr = s.memRead addr := rfl

@[simp] theorem State.memRead_writeReg (s : State) (r : Reg) (v addr : Byte) :
    (s.writeReg r v).memRead addr = s.memRead addr := rfl

@[simp] theorem State.memRead_writePixel (s : State) (r c : Fin 8) (v addr : Byte) :
    (s.writePixel r c v).memRead addr = s.memRead addr := rfl

theorem pixelRow_lt_iff {addr : Byte} (h : 128 ≤ addr.toNat) : pixelRow addr < 8 ↔ addr.toNat < 192 := by
  simp only [pixelRow, Config.pixelBase, Config.pixelCols]
  omega

theorem State.memWrite_ram (s : State) {addr : Byte} (h : addr.toNat < 128) (v : Byte) :
    s.memWrite addr v = .ok (s.writeDmem addr v) :=
  if_pos h

theorem State.memWrite_pixel (s : State) {addr : Byte} (h : 128 ≤ addr.toNat) (h' : addr.toNat < 192) (v : Byte) :
    s.memWrite addr v =
      .ok (s.writePixel (Fin.ofNat 8 ((addr.toNat - 128) / 8)) (Fin.ofNat 8 ((addr.toNat - 128) % 8)) v) := by
  unfold State.memWrite
  rw [if_neg (by simp only [Config.pixelBase]; omega), if_pos ((pixelRow_lt_iff h).mpr h')]
  rfl

theorem State.memWrite_outOfRange (s : State) {addr : Byte} (h : 192 ≤ addr.toNat) (v : Byte) :
    s.memWrite addr v = .error (.pixelStoreOutOfRange addr ((addr.toNat - 128) / 8) ((addr.toNat - 128) % 8)) := by
  unfold State.memWrite
  rw [if_neg (by simp only [Config.pixelBase]; omega),
    if_neg (fun hr => by have := (pixelRow_lt_iff (by omega)).mp hr; omega)]
  rfl

/-- Everything the store path can do. -/
theorem State.memWrite_cases (s : State) (addr v : Byte) :
    (addr.toNat < 128 ∧ s.memWrite addr v = .ok (s.writeDmem addr v)) ∨
    (128 ≤ addr.toNat ∧ addr.toNat < 192 ∧ ∃ r c : Fin 8, s.memWrite addr v = .ok (s.writePixel r c v)) ∨
    (192 ≤ addr.toNat ∧ ∃ row col, s.memWrite addr v = .error (.pixelStoreOutOfRange addr row col)) := by
  rcases Nat.lt_or_ge addr.toNat 128 with h | h
  · exact .inl ⟨h, s.memWrite_ram h v⟩
  · rcases Nat.lt_or_ge addr.toNat 192 with h' | h'
    · exact .inr (.inl ⟨h, h', _, _, s.memWrite_pixel h h' v⟩)
    · exact .inr (.inr ⟨h', _, _, s.memWrite_outOfRange h' v⟩)

/-! ## Fetch (R111, R141) -/

theorem State.fetch_ok {s : State} {w : InstrWord} (h : s.imem[s.pc.toNat]? = some w) : s.fetch = .ok w := by
  simp only [State.fetch, h]

theorem State.fetch_error {s : State} (h : s.imem.length ≤ s.pc.toNat) :
    s.fetch = .error (.outOfBoundsFetch s.pc) := by
  simp only [State.fetch, List.getElem?_eq_none h]

theorem imageWithWordAt_getElem? (image : List InstrWord) (i : Nat) (w : InstrWord) :
    (imageWithWordAt image i w)[i]? = some w := by
  unfold imageWithWordAt
  rw [List.getElem?_set_self]
  simp only [List.length_append, List.length_replicate]
  omega

end Sys2Proof.Machine
end

