-- ==== Sys2Proof/Laws/Exec.lean ====
section
/-!
SUPPORT. What `exec` and `step` can do when they answer a next state, said once.
-/

namespace Sys2Proof.Machine

/-- Everything an instruction can do to the state: write one register and go on; write one data-memory cell below
128 or one pixel and go on; only move `pc`; write a register and jump; change nothing. -/
theorem exec_cases {i : Instr} {s t : State} (h : exec i s = .next t) :
    (∃ d v, t = (s.writeReg d v).setPc s.nextPc) ∨
    (∃ a v : Byte, a.toNat < 128 ∧ t = (s.writeDmem a v).setPc s.nextPc) ∨
    (∃ (r c : Fin 8) (v : Byte), t = (s.writePixel r c v).setPc s.nextPc) ∨
    (∃ p, t = s.setPc p) ∨
    (∃ v p, t = (s.writeReg 7 v).setPc p) ∨
    t = s := by
  cases i with
  | lb _ _ => cases h; exact .inl ⟨_, _, rfl⟩
  | sb src1 src2 =>
    simp only [exec, execSb] at h
    rcases s.memWrite_cases (s.effectiveAddress src2) (s.readReg src1) with
      ⟨ha, hw⟩ | ⟨-, -, r, c, hw⟩ | ⟨-, _, _, hw⟩ <;> rw [hw] at h <;> cases h
    · exact .inr (.inl ⟨_, _, ha, rfl⟩)
    · exact .inr (.inr (.inl ⟨_, _, _, rfl⟩))
  | add _ _ _ => cases h; exact .inl ⟨_, _, rfl⟩
  | sub _ _ _ => cases h; exact .inl ⟨_, _, rfl⟩
  | move _ _ => cases h; exact .inl ⟨_, _, rfl⟩
  | addi _ _ => cases h; exact .inl ⟨_, _, rfl⟩
  | seti _ _ => cases h; exact .inl ⟨_, _, rfl⟩
  | beq _ _ => cases h; exact .inr (.inr (.inr (.inl ⟨_, rfl⟩)))
  | bne _ _ => cases h; exact .inr (.inr (.inr (.inl ⟨_, rfl⟩)))
  | blt _ _ => cases h; exact .inr (.inr (.inr (.inl ⟨_, rfl⟩)))
  | jr _ => cases h; exact .inr (.inr (.inr (.inl ⟨_, rfl⟩)))
  | jal _ => cases h; exact .inr (.inr (.inr (.inr (.inl ⟨_, _, rfl⟩))))
  | undefined1100 => cases h; exact .inr (.inr (.inr (.inr (.inr rfl))))
  | undefined1101 => cases h; exact .inr (.inr (.inr (.inr (.inr rfl))))
  | undefined1110 => cases h; exact .inr (.inr (.inr (.inr (.inr rfl))))
  | undefined1111 => cases h; exact .inr (.inr (.inr (.inr (.inr rfl))))

/-- A step that goes on has fetched a word and run the instruction it stands for. -/
theorem step_cases {s t : State} (h : step s = .next t) :
    ∃ w, s.imem[s.pc.toNat]? = some w ∧ exec (decode w) s = .next t := by
  unfold step State.fetch at h
  cases hw : s.imem[s.pc.toNat]? with
  | none => simp only [hw, raise] at h; cases h
  | some w => simp only [hw] at h; exact ⟨w, rfl, h⟩

end Sys2Proof.Machine
end

