-- ==== Sys2Proof/Laws/Drivers.lean ====
section
/-!
SUPPORT. The unfolding of each driver by one step, the update lemmas of the host events, and the loader's lemma of one
digit.
-/

namespace Sys2Proof.Machine

@[simp] theorem stepN_zero (s : State) : stepN 0 s = (s, .completed) := rfl

theorem stepN_of_next {s t : State} (h : step s = .next t) (n : Nat) : stepN (n + 1) s = stepN n t := by
  simp only [stepN, h]

theorem stepN_of_fault {s : State} {f : Fault} (h : step s = .fault f) (n : Nat) :
    stepN (n + 1) s = (s, .fault f) := by
  simp only [stepN, h]

/-- Steps from a state that a step leaves as it is leave it so. -/
theorem stepN_of_fixed {s : State} (h : step s = .next s) (n : Nat) : stepN n s = (s, .completed) := by
  induction n with
  | zero => rfl
  | succ n ih => rw [stepN_of_next h, ih]

@[simp] theorem runUntil_zero (b : Int) (s : State) : runUntil b 0 s = none := rfl

theorem runUntil_of_next {b : Int} {s t : State} (h : step s = .next t) (fuel : Nat) :
    runUntil b (fuel + 1) s = if (t.pc.toNat : Int) = b then some (t, .completed) else runUntil b fuel t := by
  simp only [runUntil, h]

theorem runUntil_of_fault {b : Int} {s : State} {f : Fault} (h : step s = .fault f) (fuel : Nat) :
    runUntil b (fuel + 1) s = some (s, .fault f) := by
  simp only [runUntil, h]

/-- `SetButtons` writes the latch and nothing else. -/
theorem State.setButtons_eq {s t : State} {pattern : List Char} (h : s.setButtons pattern = .ok t) :
    ∃ b, t = { s with btn := b } := by
  unfold State.setButtons at h
  split at h
  · split at h
    · cases h; exact ⟨_, rfl⟩
    · cases h
  · cases h

/-- `Load` answers the state after the load of the image it has read, and no other. -/
theorem load_eq {source : List Char} {s : State} (h : load source = .ok s) :
    ∃ image, parseImage source = .ok image ∧ imageWf image = true ∧ s = State.afterLoad image := by
  unfold load at h
  cases hp : parseImage source with
  | error e => rw [hp] at h; cases h
  | ok image =>
    rw [hp] at h
    cases h
    refine ⟨image, rfl, ?_, rfl⟩
    unfold parseImage at hp
    split at hp
    · split at hp
      · cases hp; assumption
      · cases hp
    · cases hp

/-- Separators before a token add nothing. -/
theorem tokensFrom_separators {gap : List Char} (h : ∀ c ∈ gap, isSeparator c = true) (rest : List Char) :
    tokensFrom [] (gap ++ rest) = tokensFrom [] rest := by
  induction gap with
  | nil => rfl
  | cons c gap ih =>
    rw [List.cons_append, tokensFrom, if_pos (h c (by simp)), if_pos rfl, ih fun d hd => h d (by simp [hd])]

/-- Characters that separate nothing go to the token under way. -/
theorem tokensFrom_token {token : List Char} (h : ∀ c ∈ token, isSeparator c = false) (cur rest : List Char) :
    tokensFrom cur (token ++ rest) = tokensFrom (cur ++ token) rest := by
  induction token generalizing cur with
  | nil => simp
  | cons c token ih =>
    rw [List.cons_append, tokensFrom, if_neg (by simp [h c (by simp)]), ih fun d hd => h d (by simp [hd])]
    simp

/-- A token, a separator and what follows. -/
theorem tokensFrom_token_separator {token : List Char} (ht : token ≠ []) (h : ∀ c ∈ token, isSeparator c = false)
    {c : Char} (hc : isSeparator c = true) (rest : List Char) :
    tokensFrom [] (token ++ c :: rest) = token :: tokensFrom [] rest := by
  rw [tokensFrom_token h, List.nil_append, tokensFrom, if_pos hc, if_neg ht]

/-- The loader's accumulator gives the number by place value. -/
theorem hexValueFrom_eq {token : List Char} (h : ∀ c ∈ token, (hexDigit c).isSome = true) (acc : Nat) :
    hexValueFrom acc token = some (acc * 16 ^ token.length + tokenNumber token) := by
  induction token generalizing acc with
  | nil => simp [hexValueFrom, tokenNumber]
  | cons c token ih =>
    obtain ⟨d, hd⟩ := Option.isSome_iff_exists.mp (h c (by simp))
    simp only [hexValueFrom, hd, ih fun e he => h e (by simp [he]), tokenNumber, Option.getD_some,
      List.length_cons, Option.some.injEq]
    ring

/-- A written digit reads back, and separates nothing. -/
theorem hexDigit_hexChar : ∀ d, d < 16 → hexDigit (hexChar d) = some d ∧ isSeparator (hexChar d) = false := by
  decide

end Sys2Proof.Machine
end

