-- ==== Sys2Proof/Laws/PerInstr.lean ====
section
/-!
SUPPORT. A statement made per instruction: the encoded word carries the instruction's own opcode in bits 15 to 12
(30_encoding.md R55).
-/

namespace Sys2Proof.Laws

/-- The top four bits of the encoding are the opcode of the instruction. -/
def EncodedOpcode.Statement (i : Instr) : Prop := i.wf = true → (encode i).toNat / 4096 = i.opcode.val

theorem EncodedOpcode.lb (d b : Reg) : EncodedOpcode.Statement (.lb d b) := fun _ => wordR_opcode _ _ _ _

theorem EncodedOpcode.sb (a b : Reg) : EncodedOpcode.Statement (.sb a b) := fun _ => wordR_opcode _ _ _ _

theorem EncodedOpcode.add (d a b : Reg) : EncodedOpcode.Statement (.add d a b) := fun _ => wordR_opcode _ _ _ _

theorem EncodedOpcode.sub (d a b : Reg) : EncodedOpcode.Statement (.sub d a b) := fun _ => wordR_opcode _ _ _ _

theorem EncodedOpcode.move (d a : Reg) : EncodedOpcode.Statement (.move d a) := fun _ => wordR_opcode _ _ _ _

theorem EncodedOpcode.addi (d : Reg) (imm : Nat) : EncodedOpcode.Statement (.addi d imm) :=
  fun h => wordI_opcode _ _ h

theorem EncodedOpcode.seti (d : Reg) (imm : Nat) : EncodedOpcode.Statement (.seti d imm) :=
  fun h => wordI_opcode _ _ h

theorem EncodedOpcode.beq (d : Reg) (imm : Nat) : EncodedOpcode.Statement (.beq d imm) :=
  fun h => wordI_opcode _ _ h

theorem EncodedOpcode.bne (d : Reg) (imm : Nat) : EncodedOpcode.Statement (.bne d imm) :=
  fun h => wordI_opcode _ _ h

theorem EncodedOpcode.blt (d : Reg) (imm : Nat) : EncodedOpcode.Statement (.blt d imm) :=
  fun h => wordI_opcode _ _ h

theorem EncodedOpcode.jr (a : Reg) : EncodedOpcode.Statement (.jr a) := fun _ => wordR_opcode _ _ _ _

theorem EncodedOpcode.jal (imm : Nat) : EncodedOpcode.Statement (.jal imm) := fun h => wordJal_opcode _ h

theorem EncodedOpcode.undefined1100 : EncodedOpcode.Statement .undefined1100 := fun _ => rfl

theorem EncodedOpcode.undefined1101 : EncodedOpcode.Statement .undefined1101 := fun _ => rfl

theorem EncodedOpcode.undefined1110 : EncodedOpcode.Statement .undefined1110 := fun _ => rfl

theorem EncodedOpcode.undefined1111 : EncodedOpcode.Statement .undefined1111 := fun _ => rfl

end Sys2Proof.Laws
end

