-- ==== Sys2Proof/Tests/Slice0.lean ====
section
/-!
SUPPORT. Tests. Expected results are the vectors of spec/95_test_vectors.md, named by their ids, and hand calculation from
the rules; words are written out from 30_encoding.md R52 to R54. After them, for each statement that has hypotheses, a
concrete case that meets them.
-/

namespace Sys2Proof.Tests

open Sys2Proof Sys2Proof.Machine

/-! ## Helpers -/

/-- One field of the next state. -/
def after {α : Type} (o : StepResult) (f : State → α) : Option α :=
  match o with
  | .next t => some (f t)
  | .fault _ => none
  | .refused _ => none

/-- The fault of an outcome. -/
def faultOf (o : StepResult) : Option Fault :=
  match o with
  | .next _ => none
  | .fault f => some f
  | .refused _ => none

/-- A state with one word at `pc`, as the vectors place it, and some registers set. -/
def at' (pc : Nat) (w : InstrWord) (regs : List (Reg × Byte)) : State :=
  regs.foldl (fun s p => s.writeReg p.1 p.2)
    { State.reset with pc := BitVec.ofNat 13 pc, imem := imageWithWordAt [] pc w }

/-! ## Well-formedness: each check refuses an ill-formed term -/

theorem test_wf_addi_imm_511 : (Instr.addi 0 511).wf = true := by decide
theorem test_wf_refuses_addi_imm_512 : (Instr.addi 0 512).wf = false := by decide
theorem test_wf_refuses_seti_imm_512 : (Instr.seti 0 512).wf = false := by decide
theorem test_wf_refuses_beq_imm_512 : (Instr.beq 0 512).wf = false := by decide
theorem test_wf_refuses_bne_imm_512 : (Instr.bne 0 512).wf = false := by decide
theorem test_wf_refuses_blt_imm_512 : (Instr.blt 0 512).wf = false := by decide
theorem test_wf_refuses_jal_imm_4096 : (Instr.jal 4096).wf = false := by decide
theorem test_wf_refuses_image_4097 : imageWf (List.replicate 4097 0) = false := by
  simp only [imageWf, List.length_replicate, Config.imemMax]; decide
theorem test_wf_refuses_memory_unsorted : Memory.wf [(5, 1), (4, 1)] = false := by decide
theorem test_wf_refuses_memory_zero_cell : Memory.wf [(5, 0)] = false := by decide
theorem test_wf_refuses_memory_address_256 : Memory.wf [(256, 1)] = false := by decide

/-! ## Decoding: one word of every constructor, written out from R52 to R54 -/

theorem test_decode_lb : decode 0b0000_010_000_001_000 = .lb 2 1 := by decide
theorem test_decode_sb : decode 0b0001_000_000_011_000 = .sb 0 3 := by decide
theorem test_decode_sb_ignored : decode 0b0001_111_000_001_111 = .sb 0 1 := by decide
theorem test_decode_add : decode 0b0010_001_010_011_000 = .add 1 2 3 := by decide
theorem test_decode_sub : decode 0b0011_001_010_011_000 = .sub 1 2 3 := by decide
theorem test_decode_move_ignored : decode 0b0100_100_101_111_000 = .move 4 5 := by decide
theorem test_decode_addi : decode 0b0101_011_111111111 = .addi 3 511 := by decide
theorem test_decode_seti : decode 0b0110_011_110101011 = .seti 3 0x1AB := by decide
theorem test_decode_beq : decode 0b0111_010_111111101 = .beq 2 509 := by decide
theorem test_decode_bne : decode 0b1000_000_111111110 = .bne 0 510 := by decide
theorem test_decode_blt : decode 0b1001_001_100000000 = .blt 1 256 := by decide
theorem test_decode_jr_ignored : decode 0b1010_101_111_011_101 = .jr 7 := by decide
theorem test_decode_jal : decode 0b1011_111111111111 = .jal 4095 := by decide
theorem test_decode_undefined1100 : decode 0b1100_000000000000 = .undefined1100 := by decide
theorem test_decode_undefined1101 : decode 0b1101_000100100011 = .undefined1101 := by decide
theorem test_decode_undefined1110 : decode 0b1110_000000000000 = .undefined1110 := by decide
theorem test_decode_undefined1111 : decode 0b1111_111111111111 = .undefined1111 := by decide
theorem test_decodeTableWord_short : decodeTableWord 8 0 = some (.lb 0 0) := by decide
theorem test_decodeNumber_too_long : decodeNumber 17 0 = .error .longerThanAWord := by rfl
theorem test_encode_bne : encode (.bne 0 510) = 0x81FE := by decide
theorem test_encode_jr : encode (.jr 7) = 0xA1C0 := by decide

/-! ## Steps -/

theorem test_M4_lb_dest_is_address :
    after (step { (at' 0 0x0208 [(1, 50)]) with dmem := [(50, 7)] }) (fun t => (t.pc, t.readReg 1)) = some (1, 7) := by
  decide
theorem test_M7_lb_button_2 :
    after (step { (at' 0 0x0408 [(1, 130), (2, 9)]) with btn := #v[1, 0, 1] }) (·.readReg 2) = some 1 := by decide
theorem test_M12_sb_last_ram :
    after (step (at' 0 0x1008 [(0, 255), (1, 127)])) (fun t => (t.pc, t.dmem)) = some (1, [(127, 255)]) := by decide
theorem test_M18_F3_sb_last_pixel_and_fault :
    after (step (at' 0 0x1008 [(0, 200), (1, 191)])) (fun t => (t.readPixel 7 7, t.dmem)) = some (200, []) ∧
    faultOf (step (at' 1 0x1000 [(0, 200)])) = some (.pixelStoreOutOfRange 200 9 0) := by decide
theorem test_A4_add_wraps : after (step (at' 0 0x2298 [(2, 255), (3, 255)])) (·.readReg 1) = some 254 := by decide
theorem test_A15_add_doubles : after (step (at' 0 0x2248 [(1, 200)])) (·.readReg 1) = some 144 := by decide
theorem test_A8_sub_wraps : after (step (at' 0 0x3298 [(2, 1), (3, 2)])) (·.readReg 1) = some 255 := by decide
theorem test_A10_sub_order : after (step (at' 0 0x3298 [(2, 255), (3, 1)])) (·.readReg 1) = some 254 := by decide
theorem test_A18_move : after (step (at' 0 0x4940 [(4, 1), (5, 250)])) (·.readReg 4) = some 250 := by decide
theorem test_A28_addi : after (step (at' 0 0x57FF [(3, 255)])) (·.readReg 3) = some 254 := by decide
theorem test_A34_seti : after (step (at' 0 0x67AB [(3, 77)])) (·.readReg 3) = some 171 := by decide
theorem test_T3_beq_back : after (step (at' 10 0x75FD [])) (·.pc) = some 7 := by decide
theorem test_T6_beq_below_zero : after (step (at' 3 0x7D00 [])) (·.pc) = some 7939 := by decide
theorem test_T9_bne_taken : after (step (at' 5 0x81FE [(0, 4)])) (·.pc) = some 3 := by decide
theorem test_T10_bne_not_taken : after (step (at' 5 0x81FE [])) (·.pc) = some 6 := by decide
theorem test_T12_blt_signed : after (step (at' 2 0x9003 [(0, 240), (6, 16)])) (·.pc) = some 5 := by decide
theorem test_T15_blt_signed_not : after (step (at' 0 0x92FF [(1, 127), (6, 128)])) (·.pc) = some 1 := by decide
theorem test_T22_jr : after (step (at' 40 0xA000 [(0, 255)])) (·.pc) = some 255 := by decide
theorem test_T26_jal : after (step (at' 255 0xB123 [(7, 9)])) (fun t => (t.pc, t.readReg 7)) = some (291, 0) := by decide
theorem test_X1_undefined1100 : after (step (at' 3 0xC000 [(0, 1)])) (fun t => decide (t = at' 3 0xC000 [(0, 1)])) = some true := by decide
theorem test_X2_undefined1101 : after (step (at' 3 0xD123 [])) (·.pc) = some 3 := by decide
theorem test_X3_undefined1110 : after (step (at' 0 0xE000 [])) (·.pc) = some 0 := by decide
theorem test_X5_undefined1111 : after (step (at' 0 0xFFFF [(6, 255)])) (·.pc) = some 0 := by decide
theorem test_F2_fetch_of_empty_image : faultOf (step State.reset) = some (.outOfBoundsFetch 0) := by decide

/-! ## Host events -/

/-- The image a text loads as, or nothing where the load fails. -/
def imageOf (text : String) : Option (List InstrWord) :=
  match load text.toList with
  | .ok s => some s.imem
  | .error _ => none

theorem test_H2_load : imageOf "6005\n  6200\t6c00" = some [0x6005, 0x6200, 0x6C00] := by decide
theorem test_H4_load_bad_digit : imageOf "6005 60G0" = none := by decide
theorem test_H5_load_empty : imageOf "" = some [] := by decide
theorem test_H17_load_wide_token : imageOf "10000" = none := by decide
theorem test_H18_load_prefix : imageOf "0x6005" = none := by decide
theorem test_H19_load_leading_zeros : imageOf "5 05 0005" = some [5, 5, 5] := by decide

/-- The latch after a pattern, or nothing where the event fails. -/
def latchOf (pattern : String) : Option (List Bit) :=
  match State.reset.setButtons pattern.toList with
  | .ok s => some s.btn.toList
  | .error _ => none

theorem test_H12_setButtons : latchOf "101" = some [1, 0, 1] := by decide
theorem test_H13_setButtons_short : latchOf "10" = none := by decide
theorem test_H13_setButtons_not_a_bit : latchOf "102" = none := by decide
theorem test_H7_runUntil : (runUntil 0 3 (State.afterLoad [0x4000, 0x4000, 0xB000])).map (fun r => (r.1.readReg 7, r.2)) =
    some (3, .completed) := by decide
theorem test_H11_stepN_stops_at_fault : ((stepN 3 (State.afterLoad [0x6001])).1.pc,
    (stepN 3 (State.afterLoad [0x6001])).2) = (1, .fault (.outOfBoundsFetch 1)) := by decide
theorem test_watchN_first_call : (watchN 2 (State.afterLoad [0x4000, 0x7DFF])).2.map (·.pc) = [1] := by decide

/-! ## Witnesses: each statement with hypotheses has a case that meets them, each clause one at an edge of its range -/

theorem witness_IgnoredBitsChangeNothing :
    (0xABDD : InstrWord).toNat / 4096 = (0xA1C0 : InstrWord).toNat / 4096 ∧
    (0xABDD : InstrWord) &&& ~~~(ignoredBits (decodeFields 0xABDD).opcode) =
      0xA1C0 &&& ~~~(ignoredBits (decodeFields 0xABDD).opcode) := by decide

theorem witness_DecodeOfEncodeIsTheInstruction : (Instr.jal 4095).wf = true ∧ (Instr.beq 7 511).wf = true := by decide

theorem witness_StepRunsTheDecodedInstruction :
    (at' 3 0x2298 []).imem[(at' 3 0x2298 []).pc.toNat]? = some 0x2298 ∧
    State.reset.imem[State.reset.pc.toNat]? = none := by decide

theorem witness_PlacedWordIsTheOneRun :
    (at' 3 0x2298 []).pc.toNat < (at' 3 0x2298 []).imem.length ∧ (0 : Nat) ≠ (at' 3 0x2298 []).pc.toNat := by decide

theorem witness_AddiAddsTheUnsignedImmediate : 0x1FF % 256 = 0xFF % 256 := by decide

theorem witness_LoadByteReadsButtonOrMemory :
    ((at' 0 0x0408 [(1, 128)]).readReg 1).toNat = 128 + (0 : Fin 3).val ∧
    ((at' 0 0x0408 [(1, 130)]).readReg 1).toNat = 128 + (2 : Fin 3).val ∧
    ((at' 0 0x0408 [(1, 127)]).readReg 1).toNat < 128 ∧
    130 < ((at' 0 0x0408 [(1, 131)]).readReg 1).toNat := by decide

theorem witness_StoreByteBelow128WritesDataMemory :
    ((at' 0 0x1008 [(1, 127)]).readReg 1).toNat < 128 ∧ (126 : Byte) ≠ (at' 0 0x1008 [(1, 127)]).readReg 1 := by decide

theorem witness_StoreByteFrom128To191WritesThePixel :
    ((at' 0 0x1008 [(1, 128)]).readReg 1).toNat = 128 + 8 * (0 : Fin 8).val + (0 : Fin 8).val ∧
    ((at' 0 0x1008 [(1, 191)]).readReg 1).toNat = 128 + 8 * (7 : Fin 8).val + (7 : Fin 8).val := by decide

theorem witness_StoreByteFrom192Faults :
    192 ≤ ((at' 0 0x1008 [(1, 192)]).readReg 1).toNat ∧ 192 ≤ ((at' 0 0x1008 [(1, 255)]).readReg 1).toNat := by decide

theorem witness_BeqBranchesWhenEqual :
    511 < 512 ∧ (at' 10 0x75FF []).readReg 2 = (at' 10 0x75FF []).readReg 6 ∧
    (at' 10 0x75FF [(2, 1)]).readReg 2 ≠ (at' 10 0x75FF [(2, 1)]).readReg 6 := by decide

theorem witness_BneBranchesWhenDifferent :
    511 < 512 ∧ (at' 10 0x85FF [(2, 1)]).readReg 2 ≠ (at' 10 0x85FF [(2, 1)]).readReg 6 ∧
    (at' 10 0x85FF []).readReg 2 = (at' 10 0x85FF []).readReg 6 := by decide

theorem witness_BltBranchesWhenSignedLess :
    511 < 512 ∧
    ((at' 0 0x93FF [(1, 128), (6, 127)]).readReg 1).toInt < ((at' 0 0x93FF [(1, 128), (6, 127)]).readReg 6).toInt ∧
    ¬ ((at' 0 0x93FF [(1, 7), (6, 7)]).readReg 1).toInt < ((at' 0 0x93FF [(1, 7), (6, 7)]).readReg 6).toInt := by decide

theorem witness_JalLinksAndJumps : 4095 < 4096 := by decide

theorem witness_UndefinedOpcodesChangeNothing :
    (at' 3 0xC000 []).imem[(at' 3 0xC000 []).pc.toNat]? = some 0xC000 ∧ 12 ≤ (0xC000 : InstrWord).toNat / 4096 := by
  decide

theorem witness_IdiomsDoWhatTheSpecDerives : 511 < 512 ∧ ¬ 511 ≤ 255 := by decide

theorem witness_OnlyStoresChangeMemoryAndNothingChangesButtonsOrImage :
    (∃ t, step (at' 3 0x2298 []) = .next t) ∧
    (at' 3 0x2298 []).imem[(at' 3 0x2298 []).pc.toNat]? = some 0x2298 ∧ (∀ a b, decode 0x2298 ≠ .sb a b) :=
  ⟨⟨_, rfl⟩, by decide, by decide⟩

theorem witness_StoredByteIsLoadedBack : ((at' 0 0x1008 [(1, 127)]).readReg 1).toNat < 128 := by decide

theorem witness_PixelStoreChangesNoLoad :
    128 ≤ ((at' 0 0x1008 [(1, 128)]).readReg 1).toNat ∧ ((at' 0 0x1008 [(1, 191)]).readReg 1).toNat < 192 ∧
    128 ≤ ((at' 0 0x1008 [(1, 191)]).readReg 1).toNat ∧ ((at' 0 0x1008 [(1, 128)]).readReg 1).toNat < 192 := by decide

/-- A word at `pc`, registers set: such a state meets the invariant. -/
theorem witness_LoadsAbove130GiveZero :
    (at' 0 0x0408 [(1, 131)]).Inv ∧ 131 ≤ ((at' 0 0x0408 [(1, 131)]).readReg 1).toNat := by
  refine ⟨⟨by decide, by decide, by decide⟩, by decide⟩

theorem witness_CallReturnsToTheNextIndex :
    4095 < 4096 ∧ (at' 254 0xBFFF []).pc.toNat ≤ 254 ∧
    after (exec (.jal 4095) (at' 254 0xBFFF [])) (fun t => decide ((at' 9 0xA1C0 [(7, 255)]).readReg 7 = t.readReg 7)) =
      some true := by decide

theorem witness_PicturesDoNotInfluenceAStep :
    (∃ t, step (at' 0 0x1008 [(0, 5), (1, 128)]) = .next t) ∧
    (∃ f, step (at' 0 0x1008 [(0, 5), (1, 192)]) = .fault f) := ⟨⟨_, rfl⟩, ⟨_, rfl⟩⟩

/-- A load from 131 meets the premise on button loads, and its step goes on; a store to 192 meets it and faults. -/
theorem witness_ButtonsInfluenceOnlyButtonLoads :
    (∀ w d b, (at' 0 0x0408 [(1, 131)]).imem[(at' 0 0x0408 [(1, 131)]).pc.toNat]? = some w → decode w = .lb d b →
      ((at' 0 0x0408 [(1, 131)]).readReg b).toNat < 128 ∨ 130 < ((at' 0 0x0408 [(1, 131)]).readReg b).toNat) ∧
    (∃ t, step (at' 0 0x0408 [(1, 131)]) = .next t) ∧
    (∀ w d b, (at' 0 0x1008 [(1, 192)]).imem[(at' 0 0x1008 [(1, 192)]).pc.toNat]? = some w → decode w = .lb d b →
      ((at' 0 0x1008 [(1, 192)]).readReg b).toNat < 128 ∨ 130 < ((at' 0 0x1008 [(1, 192)]).readReg b).toNat) ∧
    (∃ f, step (at' 0 0x1008 [(1, 192)]) = .fault f) := by
  refine ⟨?_, ⟨_, rfl⟩, ?_, ⟨_, rfl⟩⟩
  · intro w d b hw hd
    have hw : some (0x0408 : InstrWord) = some w := hw
    cases hw
    have hd : Instr.lb 2 1 = .lb d b := hd
    cases hd
    decide
  · intro w d b hw hd
    have hw : some (0x1008 : InstrWord) = some w := hw
    cases hw
    have hd : Instr.sb 0 1 = .lb d b := hd
    cases hd

/-- A branch from index 3 to below 0, and one from index 3 to index 0, the edge inside the image. -/
theorem witness_WrapNeverLandsInsideTheImage :
    (at' 3 0x7D00 []).Inv ∧ after (step (at' 3 0x7D00 [])) (fun t => decide (7936 ≤ t.pc.toNat)) = some true ∧
    (at' 3 0x7DFD []).Inv ∧ (at' 3 0x7DFD []).imem[(at' 3 0x7DFD []).pc.toNat]? = some 0x7DFD ∧
    after (step (at' 3 0x7DFD [])) (fun t => decide (t.pc.toNat = 0 ∧ t.pc.toNat < t.imem.length)) = some true :=
  ⟨⟨by decide, by decide, by decide⟩, by decide, ⟨by decide, by decide, by decide⟩, by decide, by decide⟩

/-- Each of the four kinds of fixed point occurs, and a step that is none. -/
theorem witness_FixedPointsAreExactlyTheFourKinds :
    holdsStill .undefined1100 State.reset = true ∧ holdsStill (.beq 6 0) State.reset = true ∧
    holdsStill (.bne 1 0) (at' 0 0x8200 [(1, 1)]) = true ∧ holdsStill (.blt 1 0) (at' 0 0x9200 [(1, 128)]) = true ∧
    holdsStill (.jr 0) State.reset = true ∧ holdsStill (.jal 7) (at' 7 0xB007 [(7, 8)]) = true ∧
    holdsStill (.jal 7) (at' 7 0xB007 []) = false := by decide

theorem witness_StepKeepsTheInvariant :
    (at' 0 0x1008 [(0, 5), (1, 127)]).Inv ∧ ∃ t, step (at' 0 0x1008 [(0, 5), (1, 127)]) = .next t :=
  ⟨⟨by decide, by decide, by decide⟩, ⟨_, rfl⟩⟩

theorem witness_EveryEventKeepsTheInvariant :
    State.reset.Inv ∧ (∃ t a, (Event.setButtons ['1', '0', '1']).run 0 State.reset = some (t, a)) ∧
    load [] = .ok State.reset :=
  ⟨⟨rfl, rfl, rfl⟩, ⟨_, _, rfl⟩, rfl⟩

theorem witness_ReachableStatesMeetTheInvariant : Reachable State.reset :=
  .load (source := []) rfl

theorem witness_ResetRestartsTheLoadedProgram :
    load ['6', '0', '0', '5'] = .ok (State.afterLoad [0x6005]) := by rfl

theorem witness_SuccessfulLoadReplacesTheImageAndResets :
    parseImage ['6', '0', '0', '5'] = .ok [0x6005] := by rfl

theorem witness_FailedLoadChangesNothing :
    load ['6', 'G'] = .error .loadError ∧ 'G' ∈ ['6', 'G'] ∧ isSeparator 'G' = false ∧ hexDigit 'G' = none :=
  ⟨rfl, by decide, by decide, by decide⟩

theorem witness_LoadOfAnImageTextGivesTheImage :
    (List.replicate 4096 (0 : InstrWord)).length ≤ 4096 ∧ 4096 < (List.replicate 4097 (0 : InstrWord)).length := by
  simp only [List.length_replicate]; decide

/-- Six digits with leading zeros and both cases, worth the greatest word; a run of two separators; a last token; and a
token worth one more than the greatest word. -/
theorem witness_LoadReadsTokensByPlaceValue :
    isSeparator '\n' = true ∧ isSeparator ' ' = true ∧ isSeparator '\t' = true ∧
    IsToken ['0', '0', 'f', 'F', 'f', 'f'] ∧ tokenNumber ['0', '0', 'f', 'F', 'f', 'f'] = 0xFFFF ∧
    IsToken ['5'] ∧ tokenNumber ['5'] = 5 ∧
    IsToken ['1', '0', '0', '0', '0'] ∧ tokenNumber ['1', '0', '0', '0', '0'] = 0x10000 :=
  by simp [isSeparator, IsToken, tokenNumber, hexDigit]

/-- Any number of tokens meets the hypotheses, 4096 and 4097 among them. -/
theorem witness_LoadReadsTokensByPlaceValue_anyNumber (n : Nat) :
    (∀ p ∈ List.replicate n (['5'], [' ']), IsToken p.1 ∧ p.2 ≠ [] ∧ ∀ c ∈ p.2, isSeparator c = true) ∧
    ((List.replicate n (['5'], [' '])).map (·.1)).length = n :=
  ⟨fun p hp => by
    rw [List.eq_of_mem_replicate hp]
    simp [IsToken, isSeparator, hexDigit],
   by rw [List.length_map, List.length_replicate]⟩

theorem witness_SetButtonsWritesTheLatchOrNothing :
    (['1', '0', '1'].length = 3 ∧ (∀ c ∈ ['1', '0', '1'], c = '0' ∨ c = '1')) ∧
    ¬ (['1', '0', '2'].length = 3 ∧ (∀ c ∈ ['1', '0', '2'], c = '0' ∨ c = '1')) ∧
    ¬ (['1', '0'].length = 3 ∧ (∀ c ∈ ['1', '0'], c = '0' ∨ c = '1')) := by simp

theorem witness_SnapshotDeterminesTheState :
    State.reset.Inv ∧ State.reset.observe = State.reset.observe := ⟨⟨rfl, rfl, rfl⟩, rfl⟩

theorem witness_StepNComposes :
    (stepN 1 (State.afterLoad [0x6001])).2 = .completed ∧ (stepN 2 (State.afterLoad [0x6001])).2 ≠ .completed := by decide

theorem witness_FaultRepeatsUnderStepsAndButtons :
    step State.reset = .fault (.outOfBoundsFetch 0) ∧ ∃ t, State.reset.setButtons ['1', '1', '1'] = .ok t :=
  ⟨rfl, ⟨_, rfl⟩⟩

theorem witness_UndefinedOpcodeStallsForever :
    (at' 0 0xFFFF []).imem[(at' 0 0xFFFF []).pc.toNat]? = some 0xFFFF ∧ 12 ≤ (0xFFFF : InstrWord).toNat / 4096 ∧
    (1 : Int) ≠ (at' 0 0xFFFF []).pc.toNat := by decide

theorem witness_RunUntilStopsAtTheFirstArrival :
    (runUntil 0 1 (State.afterLoad [0x7C00])).map (·.2) = some .completed ∧
    (runUntil 0 2 (State.afterLoad [0x4000, 0x4000, 0xB000])) = none := by decide

/-- A stalled machine completes 51 steps, so the second call is due; one instruction and then the end of the image is a
completed step before a fault; an empty image faults at index 0. -/
theorem witness_WatchNIsStepNWithACallEveryFiftySteps :
    (50 * 1 < 51 ∧ (stepN (50 * 1 + 1) (State.afterLoad [0xF000])).2 = .completed) ∧
    (50 * 0 < 2 ∧ (stepN (50 * 0 + 1) (State.afterLoad [0x4000])).2 = .completed ∧
      step (stepN 1 (State.afterLoad [0x4000])).1 = .fault (.outOfBoundsFetch 1)) ∧
    (stepN 0 State.reset).2 = .completed ∧ step (stepN 0 State.reset).1 = .fault (.outOfBoundsFetch 0) :=
  ⟨⟨by decide, by rw [stepN_of_fixed rfl]⟩, ⟨by decide, by decide, rfl⟩, rfl, rfl⟩

end Sys2Proof.Tests
end

/-! # Proofs: the state family (10_state.md)

What one step can do to each part of the state, and what it can read of the devices. -/

namespace Sys2Proof

/-! ## The immediates the decoder gives (R51, R53, R54) -/

theorem decodeFields_imm_lt_512 {w : InstrWord} (h : (decodeFields w).opcode ≠ 11) : (decodeFields w).imm < 512 := by
  have hb : bits w 15 12 ≠ 0b1011 := by
    intro hb
    exact h (by simp [decodeFields, hb])
  simp only [decodeFields, if_neg hb]
  exact bits_lt w 8 0

theorem decodeFields_imm_lt_4096 (w : InstrWord) : (decodeFields w).imm < 4096 := by
  simp only [decodeFields]
  split
  · exact bits_lt w 11 0
  · exact (bits_lt w 8 0).trans (by decide)

/-- Fields whose immediate fits the format of their opcode stand for a well-formed instruction. -/
theorem instrOfFields_wf {f : Fields} (h9 : f.opcode ≠ 11 → f.imm < 512) (h12 : f.imm < 4096) :
    (instrOfFields f).wf = true := by
  unfold instrOfFields
  split
  case h_6 | h_7 | h_8 | h_9 | h_10 => next ho => exact decide_eq_true (h9 (by rw [ho]; decide))
  case h_12 => exact decide_eq_true h12
  case h_17 n hn ho => exact absurd hn (by omega)
  all_goals rfl

/-- Every word stands for a well-formed instruction (R55, R56, R59). -/
theorem decode_wf (w : InstrWord) : (decode w).wf = true :=
  instrOfFields_wf decodeFields_imm_lt_512 (decodeFields_imm_lt_4096 w)

end Sys2Proof

namespace Sys2Proof.Machine

/-! ## The step by the word at `pc` (R111, R141) -/

theorem step_of_word {s : State} {w : InstrWord} (h : s.imem[s.pc.toNat]? = some w) : step s = exec (decode w) s := by
  simp only [step, State.fetch_ok h]

theorem step_of_outside {s : State} (h : s.imem.length ≤ s.pc.toNat) : step s = .fault (.outOfBoundsFetch s.pc) := by
  simp only [step, State.fetch_error h, raise]

theorem pc_lt_length_of_step {s t : State} (h : step s = .next t) : s.pc.toNat < s.imem.length := by
  obtain ⟨w, hw, -⟩ := step_cases h
  exact (List.getElem?_eq_some_iff.mp hw).1

/-- A step fetches a word and runs it, or `pc` is outside the image. -/
theorem fetch_cases (s : State) :
    (∃ w, s.imem[s.pc.toNat]? = some w) ∨ s.imem.length ≤ s.pc.toNat := by
  rcases Nat.lt_or_ge s.pc.toNat s.imem.length with h | h
  · exact .inl ⟨_, List.getElem?_eq_getElem h⟩
  · exact .inr h

/-! ## SB by its address (R34, R71) -/

theorem execSb_ram {a r : Reg} {s : State} (h : (s.readReg r).toNat < 128) :
    execSb a r s = .next ((s.writeDmem (s.readReg r) (s.readReg a)).setPc s.nextPc) := by
  simp only [execSb, State.effectiveAddress, s.memWrite_ram h]

theorem execSb_pixel {a r : Reg} {s : State} (h : 128 ≤ (s.readReg r).toNat) (h' : (s.readReg r).toNat < 192) :
    execSb a r s = .next ((s.writePixel (Fin.ofNat 8 (((s.readReg r).toNat - 128) / 8))
      (Fin.ofNat 8 (((s.readReg r).toNat - 128) % 8)) (s.readReg a)).setPc s.nextPc) := by
  simp only [execSb, State.effectiveAddress, s.memWrite_pixel h h']

theorem execSb_outOfRange {a r : Reg} {s : State} (h : 192 ≤ (s.readReg r).toNat) :
    execSb a r s = .fault (.pixelStoreOutOfRange (s.readReg r)
      (((s.readReg r).toNat - 128) / 8) (((s.readReg r).toNat - 128) % 8)) := by
  simp only [execSb, State.effectiveAddress, s.memWrite_outOfRange h, raise]

/-- The three ranges of a store address. -/
theorem storeAddress_cases (v : Byte) : v.toNat < 128 ∨ (128 ≤ v.toNat ∧ v.toNat < 192) ∨ 192 ≤ v.toNat := by
  omega

/-! ## What a step writes (R16 to R19, R44) -/

/-- An instruction other than SB writes registers and `pc` only. -/
theorem exec_of_ne_sb {i : Instr} {s t : State} (hi : ∀ a b, i ≠ .sb a b) (h : exec i s = .next t) :
    ∃ x p, t = { s with x := x, pc := p } := by
  cases i with
  | sb a b => exact absurd rfl (hi a b)
  | _ => cases h; exact ⟨_, _, rfl⟩

/-- No instruction writes the buttons or instruction memory. -/
theorem exec_btn_imem {i : Instr} {s t : State} (h : exec i s = .next t) : t.btn = s.btn ∧ t.imem = s.imem := by
  rcases exec_cases h with ⟨_, _, rfl⟩ | ⟨_, _, -, rfl⟩ | ⟨_, _, _, rfl⟩ | ⟨_, rfl⟩ | ⟨_, _, rfl⟩ | rfl <;>
    exact ⟨rfl, rfl⟩

theorem step_btn_imem {s t : State} (h : step s = .next t) : t.btn = s.btn ∧ t.imem = s.imem := by
  obtain ⟨w, -, hx⟩ := step_cases h
  exact exec_btn_imem hx

/-- Settles O28: the buttons and the image by `exec_btn_imem`, the rest by the frame of an instruction other than SB. -/
theorem onlyStoresChangeMemoryAndNothingChangesButtonsOrImage :
    Obligations.OnlyStoresChangeMemoryAndNothingChangesButtonsOrImage := by
  intro s t h
  obtain ⟨hbtn, himem⟩ := step_btn_imem h
  refine ⟨fun k => by simp only [State.readButton, hbtn], himem, fun w hw hsb => ?_⟩
  rw [step_of_word hw] at h
  obtain ⟨x, p, rfl⟩ := exec_of_ne_sb hsb h
  exact ⟨fun _ => rfl, fun _ _ => rfl⟩

/-! ## What a step reads of the devices (R18, R19, R33, R34) -/

/-- An outcome with its next state, if it has one, changed. -/
def mapNext (g : State → State) : StepResult → StepResult
  | .next t => .next (g t)
  | .fault f => .fault f
  | .refused r => .refused r

@[simp] theorem mapNext_next (g : State → State) (t : State) : mapNext g (.next t) = .next (g t) := rfl
@[simp] theorem mapNext_fault (g : State → State) (f : Fault) : mapNext g (.fault f) = .fault f := rfl

/-- A store under another button pattern keeps the pattern. -/
theorem execSb_withButtons (a r : Reg) (s : State) (b : Vector Bit 3) :
    execSb a r { s with btn := b } = mapNext (fun t => { t with btn := b }) (execSb a r s) := by
  rcases storeAddress_cases (s.readReg r) with h | ⟨h, h'⟩ | h
  · rw [execSb_ram h, execSb_ram (s := { s with btn := b }) h]; rfl
  · rw [execSb_pixel h h', execSb_pixel (s := { s with btn := b }) h h']; rfl
  · rw [execSb_outOfRange h, execSb_outOfRange (s := { s with btn := b }) h]; rfl

/-- A store over another picture leaves some picture and does the same to everything else. -/
theorem execSb_withPicture (a r : Reg) (s : State) (p : Vector (Vector Byte 8) 8) :
    ∃ q, execSb a r { s with pix := p } = mapNext (fun t => { t with pix := q }) (execSb a r s) := by
  rcases storeAddress_cases (s.readReg r) with h | ⟨h, h'⟩ | h
  · rw [execSb_ram h, execSb_ram (s := { s with pix := p }) h]; exact ⟨p, rfl⟩
  · rw [execSb_pixel h h', execSb_pixel (s := { s with pix := p }) h h']; exact ⟨_, rfl⟩
  · rw [execSb_outOfRange h, execSb_outOfRange (s := { s with pix := p }) h]; exact ⟨p, rfl⟩

/-- No instruction reads the picture: the same outcome, but for the picture it leaves (R19). -/
theorem exec_withPicture (i : Instr) (s : State) (p : Vector (Vector Byte 8) 8) :
    ∃ q, exec i { s with pix := p } = mapNext (fun t => { t with pix := q }) (exec i s) := by
  cases i with
  | sb a r => exact execSb_withPicture a r s p
  | _ => exact ⟨p, rfl⟩

/-- LB outside 128 to 130 gives the same under every button pattern (R33). -/
theorem execLb_withButtons {d r : Reg} {s : State} (h : (s.readReg r).toNat < 128 ∨ 130 < (s.readReg r).toNat)
    (b : Vector Bit 3) :
    execLb d r { s with btn := b } = mapNext (fun t => { t with btn := b }) (execLb d r s) := by
  have hread : State.memRead { s with btn := b } (s.readReg r) = s.memRead (s.readReg r) := by
    rw [s.memRead_dmem h, State.memRead_dmem _ h]
    rfl
  exact congrArg (State.retireReg { s with btn := b } d) hread

/-- No instruction but a button load reads the buttons: the same outcome, with the pattern kept (R18, R115). -/
theorem exec_withButtons {i : Instr} {s : State}
    (hlb : ∀ d r, i = .lb d r → (s.readReg r).toNat < 128 ∨ 130 < (s.readReg r).toNat) (b : Vector Bit 3) :
    exec i { s with btn := b } = mapNext (fun t => { t with btn := b }) (exec i s) := by
  cases i with
  | lb d r => exact execLb_withButtons (hlb d r rfl) b
  | sb a r => exact execSb_withButtons a r s b
  | _ => rfl

theorem step_withPicture (s : State) (p : Vector (Vector Byte 8) 8) :
    ∃ q, step { s with pix := p } = mapNext (fun t => { t with pix := q }) (step s) := by
  rcases fetch_cases s with ⟨w, hw⟩ | hout
  · rw [step_of_word hw, step_of_word (s := { s with pix := p }) hw]
    exact exec_withPicture (decode w) s p
  · rw [step_of_outside hout, step_of_outside (s := { s with pix := p }) hout]
    exact ⟨p, rfl⟩

theorem step_withButtons {s : State}
    (hlb : ∀ w d r, s.imem[s.pc.toNat]? = some w → decode w = .lb d r →
      (s.readReg r).toNat < 128 ∨ 130 < (s.readReg r).toNat) (b : Vector Bit 3) :
    step { s with btn := b } = mapNext (fun t => { t with btn := b }) (step s) := by
  rcases fetch_cases s with ⟨w, hw⟩ | hout
  · rw [step_of_word hw, step_of_word (s := { s with btn := b }) hw]
    exact exec_withButtons (fun d r => hlb w d r hw) b
  · rw [step_of_outside hout, step_of_outside (s := { s with btn := b }) hout]
    rfl

/-- Settles O33: the outcome over another picture is the outcome itself with its picture replaced. -/
theorem picturesDoNotInfluenceAStep : Obligations.PicturesDoNotInfluenceAStep := by
  intro s p
  obtain ⟨q, hq⟩ := step_withPicture s p
  exact ⟨fun t h => ⟨q, by rw [hq, h, mapNext_next]⟩, fun f h => by rw [hq, h, mapNext_fault]⟩

/-- Settles O34: the outcome under another pattern is the outcome itself with its buttons replaced. -/
theorem buttonsInfluenceOnlyButtonLoads : Obligations.ButtonsInfluenceOnlyButtonLoads := by
  intro s b hlb
  have hb := step_withButtons hlb b
  exact ⟨fun t h => by rw [hb, h, mapNext_next], fun f h => by rw [hb, h, mapNext_fault]⟩

/-! ## Where a step leaves `pc` (R14, R15) -/

theorem wrap13_pc (p : Pc) : wrap13 p.toNat = p :=
  BitVec.eq_of_toNat_eq ((wrap13_natCast_toNat p.toNat).trans (Nat.mod_eq_of_lt p.isLt))

theorem wrap13_byte (v : Byte) : wrap13 v.toNat = zext13 v := by
  have := v.isLt
  apply BitVec.eq_of_toNat_eq
  rw [wrap13_natCast_toNat, zext13_toNat, Nat.mod_eq_of_lt (by omega)]

/-- A conditional branch leaves `pc` at the wrapped target or at the wrapped next index. -/
theorem branchIf_pc {s t : State} {taken : Bool} {imm : Nat} {P : Prop} [Decidable P] (hP : taken = true ↔ P)
    (h : s.branchIf taken imm = .next t) :
    t.pc = wrap13 (if P then s.pc.toNat + sext9 imm else s.pc.toNat + 1) := by
  cases h
  by_cases hp : P
  · simp only [State.setPc_pc, hP.mpr hp, if_pos hp, if_true, State.branchTarget]
  · simp only [State.setPc_pc, mt hP.mp hp, if_neg hp, State.nextPc, if_false, Bool.false_eq_true]

/-- A store that completes goes on to the next index. -/
theorem execSb_pc {a r : Reg} {s t : State} (h : execSb a r s = .next t) : t.pc = s.nextPc := by
  rcases storeAddress_cases (s.readReg r) with hr | ⟨hr, hr'⟩ | hr
  · rw [execSb_ram hr] at h; cases h; rfl
  · rw [execSb_pixel hr hr'] at h; cases h; rfl
  · rw [execSb_outOfRange hr] at h; cases h

/-- Every instruction that completes leaves `pc` at R14's successor modulo 8192. -/
theorem exec_pc {i : Instr} {s t : State} (h : exec i s = .next t) : t.pc = wrap13 (unwrappedSuccessor i s) := by
  cases i with
  | sb a r => exact execSb_pc h
  | beq d imm => exact branchIf_pc beq_iff_eq h
  | bne d imm => exact branchIf_pc bne_iff_ne h
  | blt d imm => exact branchIf_pc decide_eq_true_iff h
  | jr a => cases h; exact (wrap13_byte _).symm
  | undefined1100 | undefined1101 | undefined1110 | undefined1111 => cases h; exact (wrap13_pc _).symm
  | _ => cases h; rfl

/-- From an index below 4096 a well-formed instruction goes at most 256 below index 0 and at most to 4350. -/
theorem unwrappedSuccessor_bounds {i : Instr} {s : State} (hi : i.wf = true) (hpc : s.pc.toNat < 4096) :
    -256 ≤ unwrappedSuccessor i s ∧ unwrappedSuccessor i s ≤ 4350 := by
  cases i with
  | beq d imm | bne d imm | blt d imm =>
    have := sext9_bounds (of_decide_eq_true hi)
    simp only [unwrappedSuccessor]
    split <;> omega
  | jr a => have := (s.readReg a).isLt; simp only [unwrappedSuccessor]; omega
  | jal imm => have : imm < 4096 := of_decide_eq_true hi; simp only [unwrappedSuccessor]; omega
  | _ => simp only [unwrappedSuccessor]; omega

/-- Settles O35: `pc` is the remainder modulo 8192 of a successor between -256 and 4350, and the image has at most 4096
words. -/
theorem wrapNeverLandsInsideTheImage : Obligations.WrapNeverLandsInsideTheImage := by
  intro s t hinv h
  obtain ⟨-, -, himage⟩ := hinv
  have hlen : s.imem.length ≤ 4096 := of_decide_eq_true himage
  have himem := (step_btn_imem h).2
  have hin := pc_lt_length_of_step h
  obtain ⟨w, hw, hx⟩ := step_cases h
  have hpc : (t.pc.toNat : Int) = unwrappedSuccessor (decode w) s % 8192 := by
    rw [exec_pc hx, wrap13_toNat]
  have hbounds := unwrappedSuccessor_bounds (decode_wf w) (show s.pc.toNat < 4096 by omega)
  refine ⟨fun hlt w' hw' => ?_, by omega, fun hge => step_of_outside (by rw [himem]; omega)⟩
  rw [Option.some.inj (hw'.symm.trans hw)]
  rw [himem] at hlt
  omega

/-! ## The reset state (R23, R148) -/

/-- Settles O37: the invariant and the load by evaluation, the cells as entries of constant vectors and of an empty
memory list. -/
theorem resetStateMeetsInvariant : Obligations.ResetStateMeetsInvariant := by
  refine ⟨⟨rfl, rfl, rfl⟩, rfl, rfl, fun r => ?_, fun a => Memory.read_nil _, fun k => ?_, fun r c => ?_⟩
  · simp [State.readReg, State.reset]
  · simp [State.readButton, State.reset]
  · simp [State.readPixel, State.reset]

end Sys2Proof.Machine

/-! # Proofs: the memory family (20_memory.md)

The invariant under one step, and what a load gives after a store. -/

namespace Sys2Proof.Machine

/-! ## The invariant of every run (R16, R17, R35) -/

/-- The invariant speaks of data memory and the image alone. -/
theorem State.Inv.congr {s t : State} (h : s.Inv) (hd : t.dmem = s.dmem) (hi : t.imem = s.imem) : t.Inv := by
  unfold State.Inv
  rw [hd, hi]
  exact h

/-- A write of a cell below 128 keeps the invariant. -/
theorem State.Inv.writeDmem {s : State} (h : s.Inv) {a : Byte} (ha : a.toNat < 128) (v : Byte) :
    (s.writeDmem a v).Inv := by
  obtain ⟨hwf, hclear, himage⟩ := h
  exact ⟨Memory.wf_write hwf a.isLt v, Memory.upperDmemClear_write hclear ha v, himage⟩

/-- Every instruction that completes keeps the invariant: the one write of data memory is below 128, and every other
effect leaves data memory and the image as they were. -/
theorem exec_keeps_inv {i : Instr} {s t : State} (hinv : s.Inv) (h : exec i s = .next t) : t.Inv := by
  rcases exec_cases h with ⟨d, v, rfl⟩ | ⟨a, v, ha, rfl⟩ | ⟨r, c, v, rfl⟩ | ⟨p, rfl⟩ | ⟨v, p, rfl⟩ | rfl
  case inr.inl => exact (hinv.writeDmem ha v).congr rfl rfl
  all_goals exact hinv.congr rfl rfl

/-- Settles O38: a step is the execution of the word it fetched. -/
theorem stepKeepsTheInvariant : Obligations.StepKeepsTheInvariant := by
  intro s t hinv h
  obtain ⟨w, -, hx⟩ := step_cases h
  exact exec_keeps_inv hinv hx

/-- Cells 128 to 255 read 0 in every state that meets the invariant (R35). -/
theorem State.Inv.readDmem_eq_zero {s : State} (h : s.Inv) {a : Byte} (ha : 128 ≤ a.toNat) : s.readDmem a = 0 := by
  obtain ⟨-, hclear, -⟩ := h
  exact Memory.read_eq_zero_of_upperDmemClear hclear ha

/-! ## Loads and stores (R33, R34, R70) -/

/-- LB completes and its destination register then holds the byte the load path gives. -/
theorem exec_lb_gives_memRead (d b : Reg) (s : State) :
    ∃ t, exec (.lb d b) s = .next t ∧ t.readReg d = s.memRead (s.readReg b) :=
  ⟨(s.writeReg d (s.memRead (s.readReg b))).setPc s.nextPc, rfl, by
    rw [State.readReg_setPc, State.readReg_writeReg, if_pos rfl]⟩

/-- The load path below 128 gives the byte just stored at that address. -/
theorem State.memRead_writeDmem_same (s : State) {addr : Byte} (h : addr.toNat < 128) (v : Byte) :
    (s.writeDmem addr v).memRead addr = v := by
  rw [State.memRead_dmem _ (.inl h), State.readDmem_writeDmem, if_pos rfl]

/-- Settles O29: SB below 128 leaves the address register alone, and the load reads the cell it wrote. -/
theorem storedByteIsLoadedBack : Obligations.StoredByteIsLoadedBack := by
  intro a b d s hb
  obtain ⟨u, hu, hread⟩ :=
    exec_lb_gives_memRead d b ((s.writeDmem (s.readReg b) (s.readReg a)).setPc s.nextPc)
  refine ⟨_, u, execSb_ram hb, hu, ?_⟩
  rw [hread, State.memRead_setPc, State.readReg_setPc, State.readReg_writeDmem, s.memRead_writeDmem_same hb]

/-- Settles O30: the load path reads neither the pixels nor `pc`, which are all that a pixel store changes. -/
theorem pixelStoreChangesNoLoad : Obligations.PixelStoreChangesNoLoad := by
  intro a b s hb hb'
  refine ⟨_, execSb_pixel hb hb', fun d r => ?_⟩
  obtain ⟨u, hu, hread⟩ := exec_lb_gives_memRead d r s
  obtain ⟨v, hv, hread'⟩ := exec_lb_gives_memRead d r _
  refine ⟨u, v, hu, hv, ?_⟩
  rw [hread', hread, State.memRead_setPc, State.memRead_writePixel, State.readReg_setPc, State.readReg_writePixel]

/-- Settles O31: from 131 up the load path reads data memory, which is clear there. -/
theorem loadsAbove130GiveZero : Obligations.LoadsAbove130GiveZero := by
  intro d b s hinv hb
  obtain ⟨t, ht, hread⟩ := exec_lb_gives_memRead d b s
  refine ⟨t, ht, ?_⟩
  rw [hread, s.memRead_dmem (.inr hb), hinv.readDmem_eq_zero (by omega)]

end Sys2Proof.Machine

/-! # Proofs: the encoding family (30_encoding.md)

The fields of a word, the round trips between words and instructions, and the idioms. -/

namespace Sys2Proof

/-! ## The fields of a word (R51) -/

theorem decodeFields_dest_val (w : InstrWord) : (decodeFields w).dest.val = w.toNat / 512 % 8 := by
  simp only [decodeFields, bits, Fin.val_ofNat]
  omega

theorem decodeFields_src1_val (w : InstrWord) : (decodeFields w).src1.val = w.toNat / 64 % 8 := by
  simp only [decodeFields, bits, Fin.val_ofNat]
  omega

theorem decodeFields_src2_val (w : InstrWord) : (decodeFields w).src2.val = w.toNat / 8 % 8 := by
  simp only [decodeFields, bits, Fin.val_ofNat]
  omega

theorem decodeFields_imm (w : InstrWord) :
    (decodeFields w).imm = if w.toNat / 4096 = 11 then w.toNat % 4096 else w.toNat % 512 := by
  simp only [decodeFields, bits_15_12, bits_zero, Nat.reduceAdd, Nat.reducePow]

/-- Settles O1: one lemma for each of the five fields. -/
theorem decodedFieldsAreBitRanges : Obligations.DecodedFieldsAreBitRanges := fun w =>
  ⟨decodeFields_opcode_val w, decodeFields_dest_val w, decodeFields_src1_val w, decodeFields_src2_val w,
    decodeFields_imm w⟩

/-! ## The instruction by its opcode (R55, R59) -/

/-- The word's instruction depends on its five fields alone. -/
theorem decode_of_fields {w : InstrWord} {op : Fin 16} {d a b : Reg} {imm : Nat}
    (hop : (decodeFields w).opcode = op) (hd : (decodeFields w).dest = d) (ha : (decodeFields w).src1 = a)
    (hb : (decodeFields w).src2 = b) (himm : (decodeFields w).imm = imm) :
    decode w = instrOfFields ⟨op, d, a, b, imm⟩ := by
  subst hop hd ha hb himm
  rfl

/-- The word's instruction is the row of its top four bits, at the fields of R51. -/
theorem decode_of_opcode {w : InstrWord} {op : Fin 16} (h : w.toNat / 4096 = op.val) :
    decode w = instrOfFields
      ⟨op, Fin.ofNat 8 (w.toNat / 512), Fin.ofNat 8 (w.toNat / 64), Fin.ofNat 8 (w.toNat / 8),
        if op.val = 11 then w.toNat % 4096 else w.toNat % 512⟩ := by
  have himm : (decodeFields w).imm = if op.val = 11 then w.toNat % 4096 else w.toNat % 512 := by
    rw [decodeFields_imm, h]
  exact decode_of_fields (Fin.ext ((decodeFields_opcode_val w).trans h)) (Fin.ext (decodeFields_dest_val w))
    (Fin.ext (decodeFields_src1_val w)) (Fin.ext (decodeFields_src2_val w)) himm

/-- Settles O2: `decode_of_opcode` at each of the 16 opcodes. -/
theorem opcodeAloneSelectsTheInstruction : Obligations.OpcodeAloneSelectsTheInstruction := fun _ =>
  ⟨decode_of_opcode (op := 0), decode_of_opcode (op := 1), decode_of_opcode (op := 2), decode_of_opcode (op := 3),
    decode_of_opcode (op := 4), decode_of_opcode (op := 5), decode_of_opcode (op := 6), decode_of_opcode (op := 7),
    decode_of_opcode (op := 8), decode_of_opcode (op := 9), decode_of_opcode (op := 10), decode_of_opcode (op := 11),
    decode_of_opcode (op := 12), decode_of_opcode (op := 13), decode_of_opcode (op := 14), decode_of_opcode (op := 15)⟩

/-- The dispatch answers an instruction of the opcode it was given. -/
theorem instrOfFields_opcode (f : Fields) : (instrOfFields f).opcode = f.opcode := by
  unfold instrOfFields
  split
  case h_17 n hn ho => exact absurd hn (by omega)
  all_goals next ho => exact ho.symm

theorem decode_opcode (w : InstrWord) : (decode w).opcode = (decodeFields w).opcode :=
  instrOfFields_opcode _

/-- Settles O6: `decode_wf`, and the opcode of the dispatch. -/
theorem everyWordDecodesWellFormed : Obligations.EveryWordDecodesWellFormed := fun w =>
  ⟨decode_wf w, by rw [decode_opcode, decodeFields_opcode_val]⟩

/-- Settles O7: the decoder run on each word. -/
theorem sampleWordsDecode : Obligations.SampleWordsDecode := by
  unfold Obligations.SampleWordsDecode
  decide

/-! ## From an instruction to its word and back (R52 to R56) -/

/-- An R-format word decodes to the row of its opcode at its three registers. -/
theorem decode_wordR (op : Fin 16) (d a b : Reg) :
    decode (wordR op d a b) = instrOfFields ⟨op, d, a, b, (decodeFields (wordR op d a b)).imm⟩ := by
  obtain ⟨hop, hd, ha, hb⟩ := decodeFields_wordR op d a b
  exact decode_of_fields hop hd ha hb rfl

/-- An I-format word decodes to the row of its opcode at its register and its immediate. -/
theorem decode_wordI (op : Fin 16) (d : Reg) {imm : Nat} (himm : imm < 512) (hop : op.val ≠ 11) :
    decode (wordI op d imm) = instrOfFields
      ⟨op, d, (decodeFields (wordI op d imm)).src1, (decodeFields (wordI op d imm)).src2, imm⟩ := by
  obtain ⟨hop, hd, himm⟩ := decodeFields_wordI op d himm hop
  exact decode_of_fields hop hd rfl rfl himm

theorem decode_wordJal {imm : Nat} (himm : imm < 4096) : decode (wordJal 11 imm) = .jal imm := by
  obtain ⟨hop, himm⟩ := decodeFields_wordJal himm
  exact decode_of_fields hop rfl rfl rfl himm

/-- Settles O5: by the format of the instruction's row. -/
theorem decodeOfEncodeIsTheInstruction : Obligations.DecodeOfEncodeIsTheInstruction := by
  intro i hi
  cases i with
  | lb d b => exact decode_wordR 0 d 0 b
  | sb a b => exact decode_wordR 1 0 a b
  | add d a b => exact decode_wordR 2 d a b
  | sub d a b => exact decode_wordR 3 d a b
  | move d a => exact decode_wordR 4 d a 0
  | jr a => exact decode_wordR 10 0 a 0
  | addi d imm => exact decode_wordI 5 d (of_decide_eq_true hi) (by decide)
  | seti d imm => exact decode_wordI 6 d (of_decide_eq_true hi) (by decide)
  | beq d imm => exact decode_wordI 7 d (of_decide_eq_true hi) (by decide)
  | bne d imm => exact decode_wordI 8 d (of_decide_eq_true hi) (by decide)
  | blt d imm => exact decode_wordI 9 d (of_decide_eq_true hi) (by decide)
  | jal imm => exact decode_wordJal (of_decide_eq_true hi)
  | undefined1100 | undefined1101 | undefined1110 | undefined1111 => rfl

/-! ## The ignored bits and the canonical word (R58, D8) -/

/-- The mask of bits `hi` down to `lo`. -/
def rangeMask (hi lo : Nat) : InstrWord := BitVec.ofNat 16 ((2 ^ (hi - lo + 1) - 1) * 2 ^ lo)

/-- The bits of a number in a run of `n` bits from bit `k` on. -/
theorem nat_and_run (v n k : Nat) : v &&& (2 ^ n - 1) * 2 ^ k = v / 2 ^ k % 2 ^ n * 2 ^ k := by
  apply Nat.eq_of_testBit_eq
  intro i
  simp only [Nat.testBit_and, Nat.testBit_mul_two_pow, Nat.testBit_two_pow_sub_one, Nat.testBit_mod_two_pow,
    Nat.testBit_div_two_pow]
  rcases Nat.lt_or_ge i k with h | h
  · simp [Nat.not_le.mpr h]
  · simp [h, Bool.and_comm]

theorem toNat_and_rangeMask (w : InstrWord) (hi lo : Nat) :
    (w &&& rangeMask hi lo).toNat = bits w hi lo * 2 ^ lo := by
  have hlt : w.toNat &&& (2 ^ (hi - lo + 1) - 1) * 2 ^ lo < 2 ^ 16 := Nat.and_le_left.trans_lt w.isLt
  calc (w &&& rangeMask hi lo).toNat = (w.toNat &&& (2 ^ (hi - lo + 1) - 1) * 2 ^ lo) % 2 ^ 16 := by
        rw [BitVec.toNat_and, rangeMask, BitVec.toNat_ofNat, Nat.and_mod_two_pow, Nat.mod_eq_of_lt w.isLt]
    _ = bits w hi lo * 2 ^ lo := by rw [Nat.mod_eq_of_lt hlt, nat_and_run, bits]

/-- Disjoint masks part the bits they cover. -/
theorem toNat_and_or {m n : InstrWord} (h : m &&& n = 0#16) (w : InstrWord) :
    (w &&& (m ||| n)).toNat = (w &&& m).toNat + (w &&& n).toNat := by
  have hdisjoint : (w &&& m) &&& (w &&& n) = 0#16 := by
    rw [BitVec.and_assoc, BitVec.and_comm w n, ← BitVec.and_assoc m, h, BitVec.zero_and, BitVec.and_zero]
  rw [← BitVec.toNat_add_of_and_eq_zero hdisjoint, BitVec.add_eq_or_of_and_eq_zero _ _ hdisjoint,
    BitVec.and_or_distrib_left]

/-- A mask and its complement part the word. -/
theorem toNat_and_add_and_not (w m : InstrWord) : (w &&& m).toNat + (w &&& ~~~m).toNat = w.toNat := by
  rw [← toNat_and_or (BitVec.and_not_self m), BitVec.or_not_self, BitVec.and_allOnes]

/-- The bits of two ranges that do not meet. -/
theorem toNat_and_two_ranges {hi lo hi' lo' : Nat} (h : rangeMask hi lo &&& rangeMask hi' lo' = 0#16) (w : InstrWord) :
    (w &&& (rangeMask hi lo ||| rangeMask hi' lo')).toNat = bits w hi lo * 2 ^ lo + bits w hi' lo' * 2 ^ lo' := by
  rw [toNat_and_or h, toNat_and_rangeMask, toNat_and_rangeMask]

/-- The ignored bits of each row as the ranges R58 lists. -/
theorem ignoredBits_ranges :
    ignoredBits 0 = rangeMask 8 6 ||| rangeMask 2 0 ∧ ignoredBits 1 = rangeMask 11 9 ||| rangeMask 2 0 ∧
    ignoredBits 2 = rangeMask 2 0 ∧ ignoredBits 3 = rangeMask 2 0 ∧ ignoredBits 4 = rangeMask 5 0 ∧
    ignoredBits 5 = 0#16 ∧ ignoredBits 6 = 0#16 ∧ ignoredBits 7 = 0#16 ∧ ignoredBits 8 = 0#16 ∧ ignoredBits 9 = 0#16 ∧
    ignoredBits 10 = rangeMask 11 9 ||| rangeMask 5 0 ∧ ignoredBits 11 = 0#16 ∧
    ignoredBits 12 = rangeMask 11 0 ∧ ignoredBits 13 = rangeMask 11 0 ∧
    ignoredBits 14 = rangeMask 11 0 ∧ ignoredBits 15 = rangeMask 11 0 := by decide

/-- A word is its canonical word and its ignored bits. -/
theorem encode_decode_add_ignored (w : InstrWord) :
    (encode (decode w)).toNat + (w &&& ignoredBits (decodeFields w).opcode).toNat = w.toNat := by
  have hop := decodeFields_opcode_val w
  have hd := decodeFields_dest_val w
  have ha := decodeFields_src1_val w
  have hb := decodeFields_src2_val w
  have himm := decodeFields_imm w
  unfold decode instrOfFields
  split
  case h_1 | h_2 | h_3 | h_4 | h_5 | h_11 =>
    next ho =>
      rw [ho] at hop ⊢
      simp (disch := decide) only [encode, wordR_toNat, ignoredBits_ranges, toNat_and_two_ranges,
        toNat_and_rangeMask, bits]
      omega
  case h_6 | h_7 | h_8 | h_9 | h_10 =>
    next ho =>
      have hlt := decodeFields_imm_lt_512 (w := w) (by rw [ho]; decide)
      rw [ho] at hop ⊢
      rw [if_neg (by omega)] at himm
      simp only [encode, wordI_toNat _ _ hlt, ignoredBits_ranges, BitVec.and_zero, BitVec.toNat_zero]
      omega
  case h_12 ho =>
    rw [ho] at hop ⊢
    rw [if_pos (by omega)] at himm
    simp only [encode, wordJal_toNat _ (decodeFields_imm_lt_4096 w), ignoredBits_ranges, BitVec.and_zero,
      BitVec.toNat_zero]
    omega
  case h_13 | h_14 | h_15 | h_16 =>
    next ho =>
      rw [ho] at hop ⊢
      simp only [encode, wordJal_toNat _ (show 0 < 4096 by decide), ignoredBits_ranges, toNat_and_rangeMask, bits]
      omega
  case h_17 n hn ho => exact absurd hn (by omega)

/-- Settles O4: without its ignored bits a word is its canonical word. -/
theorem encodeOfDecodeIsTheCanonicalWord : Obligations.EncodeOfDecodeIsTheCanonicalWord := by
  intro w
  have hcanonical := encode_decode_add_ignored w
  have hpart := toNat_and_add_and_not w (ignoredBits (decodeFields w).opcode)
  exact BitVec.eq_of_toNat_eq (by omega)

/-- Words with the same canonical word stand for the same instruction. -/
theorem decode_eq_of_encode_eq {w v : InstrWord} (h : encode (decode w) = encode (decode v)) : decode w = decode v := by
  calc decode w = decode (encode (decode w)) := (decodeOfEncodeIsTheInstruction _ (decode_wf w)).symm
    _ = decode (encode (decode v)) := by rw [h]
    _ = decode v := decodeOfEncodeIsTheInstruction _ (decode_wf v)

/-- Settles O3: words that agree outside the ignored bits have the same canonical word. -/
theorem ignoredBitsChangeNothing : Obligations.IgnoredBitsChangeNothing := by
  refine ⟨fun w v hop hagree => ?_, by decide⟩
  have hopcode : (decodeFields w).opcode = (decodeFields v).opcode :=
    Fin.ext (by rw [decodeFields_opcode_val, decodeFields_opcode_val, hop])
  have hdecode : decode w = decode v := decode_eq_of_encode_eq (by
    rw [encodeOfDecodeIsTheCanonicalWord w, encodeOfDecodeIsTheCanonicalWord v, hagree, hopcode])
  exact ⟨hdecode, fun s => by rw [hdecode]⟩

end Sys2Proof

namespace Sys2Proof.Machine

/-! ## Frames of the two ways an instruction ends -/

/-- Writing a register and moving `pc` leaves the memories as they were. -/
theorem sameMemories_setPc_writeReg (s : State) (d : Reg) (v : Byte) (p : Pc) :
    SameMemories s ((s.writeReg d v).setPc p) :=
  ⟨fun _ => rfl, fun _ => rfl, fun _ _ => rfl, rfl⟩

theorem sameMemories_setPc (s : State) (p : Pc) : SameMemories s (s.setPc p) :=
  ⟨fun _ => rfl, fun _ => rfl, fun _ _ => rfl, rfl⟩

theorem sameRegs_setPc (s : State) (p : Pc) : SameRegs s (s.setPc p) := fun _ => rfl

/-! ## Idioms (R61) -/

/-- Writing to a register what it holds leaves every register as it was. -/
theorem sameRegs_writeReg_self (s : State) (d : Reg) : SameRegs s (s.writeReg d (s.readReg d)) := by
  intro r
  rw [State.readReg_writeReg]
  split
  next h => rw [h]
  next => rfl

/-- A comparison of register 6 with itself takes BEQ. -/
theorem exec_beq_branchReg (imm : Nat) (s : State) : exec (.beq 6 imm) s = .next (s.setPc (s.branchTarget imm)) := by
  have hcond : s.equalsBranchReg 6 = true := beq_self_eq_true _
  simp only [exec, execBeq, State.branchIf, hcond, if_true]

theorem exec_bne_branchReg (imm : Nat) (s : State) : exec (.bne 6 imm) s = .next (s.setPc s.nextPc) := by
  have hcond : s.differsFromBranchReg 6 = false := bne_self_eq_false _
  simp only [exec, execBne, State.branchIf, hcond, if_false, Bool.false_eq_true]

theorem exec_blt_branchReg (imm : Nat) (s : State) : exec (.blt 6 imm) s = .next (s.setPc s.nextPc) := by
  have hcond : s.lessThanBranchReg 6 = false := decide_eq_false (lt_irrefl _)
  simp only [exec, execBlt, State.branchIf, hcond, if_false, Bool.false_eq_true]

/-- A register minus itself is 0. -/
theorem exec_sub_self (d a : Reg) (s : State) : exec (.sub d a a) s = .next ((s.writeReg d 0).setPc s.nextPc) := by
  simp only [exec, execSub, State.retireReg, sub_self]
  rfl

/-- Settles O27: each idiom by the state it ends in. -/
theorem idiomsDoWhatTheSpecDerives : Obligations.IdiomsDoWhatTheSpecDerives := by
  refine ⟨fun d s => ?_, fun imm s _ => ?_, fun imm s => ?_, fun d a s => ?_⟩
  · exact ⟨_, rfl, sameRegs_writeReg_self s d, sameMemories_setPc_writeReg s d _ _, s.nextPc_toNat⟩
  · exact ⟨_, exec_beq_branchReg imm s, sameRegs_setPc s _, sameMemories_setPc s _, s.branchTarget_toNat imm⟩
  · exact ⟨_, exec_bne_branchReg imm s, exec_blt_branchReg imm s, sameRegs_setPc s _, sameMemories_setPc s _,
      s.nextPc_toNat⟩
  · exact ⟨_, exec_sub_self d a s, by rw [State.readReg_setPc, State.readReg_writeReg, if_pos rfl]⟩

end Sys2Proof.Machine

/-! # Proofs: the load and store family (40_load_store.md)

What LB reads, and the one cell SB writes. -/

namespace Sys2Proof.Machine

/-! ## LB (R33, R70) -/

/-- Writing a register and moving `pc` leaves every other register as it was. -/
theorem sameRegsBut_setPc_writeReg (s : State) (d : Reg) (v : Byte) (p : Pc) :
    SameRegsBut d s ((s.writeReg d v).setPc p) := by
  intro r hr
  rw [State.readReg_setPc, State.readReg_writeReg, if_neg hr.symm]

theorem readReg_setPc_writeReg_same (s : State) (d : Reg) (v : Byte) (p : Pc) :
    ((s.writeReg d v).setPc p).readReg d = v := by
  rw [State.readReg_setPc, State.readReg_writeReg, if_pos rfl]

/-- The load path at `128 + k` gives button `k`, extended with zeros. -/
theorem State.memRead_button_index (s : State) {addr : Byte} {k : Fin 3} (h : addr.toNat = 128 + k.val) :
    s.memRead addr = zext8 (s.readButton k) := by
  have hk : Fin.ofNat 3 (addr.toNat - 128) = k := by
    rw [h, Nat.add_sub_cancel_left, Fin.ofNat_val_eq_self]
  rw [s.memRead_button (by omega) (by omega), hk]

/-- Settles O17: the destination gets the byte of the load path, which is a button at 128 to 130 and a data-memory cell
elsewhere. -/
theorem loadByteReadsButtonOrMemory : Obligations.LoadByteReadsButtonOrMemory := by
  intro d b s
  refine ⟨_, rfl, fun k hk => ?_, fun hb => ?_, sameRegsBut_setPc_writeReg s d _ _, s.nextPc_toNat,
    sameMemories_setPc_writeReg s d _ _⟩
  · rw [readReg_setPc_writeReg_same, State.effectiveAddress, s.memRead_button_index hk, zext8_toNat]
  · rw [readReg_setPc_writeReg_same, State.effectiveAddress, s.memRead_dmem hb]

/-! ## SB (R34, R71) -/

/-- SB to `128 + 8 * row + col` goes to that pixel: the row is the quotient by 8, the column the remainder. -/
theorem execSb_pixel_cell {a b : Reg} {s : State} {row col : Fin 8}
    (h : (s.readReg b).toNat = 128 + 8 * row.val + col.val) :
    execSb a b s = .next ((s.writePixel row col (s.readReg a)).setPc s.nextPc) := by
  have hrow : Fin.ofNat 8 (((s.readReg b).toNat - 128) / 8) = row := Fin.ext (by rw [Fin.val_ofNat]; omega)
  have hcol : Fin.ofNat 8 (((s.readReg b).toNat - 128) % 8) = col := Fin.ext (by rw [Fin.val_ofNat]; omega)
  rw [execSb_pixel (by omega) (by omega), hrow, hcol]

/-- Settles O19: `execSb_pixel_cell` names the cell written, and the pixel write touches that cell alone. -/
theorem storeByteFrom128To191WritesThePixel : Obligations.StoreByteFrom128To191WritesThePixel := by
  intro a b s row col h
  refine ⟨_, execSb_pixel_cell h, ?_, fun r c hne => ?_, fun _ => rfl, fun _ => rfl, fun _ => rfl, rfl, s.nextPc_toNat⟩
  · rw [State.readPixel_setPc, State.readPixel_writePixel, if_pos ⟨rfl, rfl⟩]
  · have hother : ¬ (row = r ∧ col = c) := fun ⟨hr, hc⟩ => hne (by rw [hr, hc])
    rw [State.readPixel_setPc, State.readPixel_writePixel, if_neg hother]

/-- Settles O18: below 128 the store is the write of one data-memory cell. -/
theorem storeByteBelow128WritesDataMemory : Obligations.StoreByteBelow128WritesDataMemory := by
  intro a b s h
  refine ⟨_, execSb_ram h, ?_, fun addr hne => ?_, fun _ => rfl, fun _ => rfl, fun _ _ => rfl, rfl, s.nextPc_toNat⟩
  · rw [State.readDmem_setPc, State.readDmem_writeDmem, if_pos rfl]
  · rw [State.readDmem_setPc, State.readDmem_writeDmem, if_neg hne]

end Sys2Proof.Machine

/-! # Proofs: the arithmetic family (41_arithmetic.md)

ADD, SUB, MOVE, ADDI and SETI each retire with one register write: they share a frame and differ in the byte written. -/

namespace Sys2Proof.Machine

/-! ## The shared ending and the wrapped sum (R5, R14) -/

/-- An instruction that retires with a register write completes: its destination reads as the byte written, `pc` is the
next index, and nothing else changes. -/
theorem State.retireReg_next (s : State) (d : Reg) (v : Byte) :
    ∃ t, s.retireReg d v = .next t ∧ t.readReg d = v ∧
      SameRegsBut d s t ∧ t.pc.toNat = (s.pc.toNat + 1) % 8192 ∧ SameMemories s t :=
  ⟨_, rfl, readReg_setPc_writeReg_same s d v _, sameRegsBut_setPc_writeReg s d v _, s.nextPc_toNat,
    sameMemories_setPc_writeReg s d v _⟩

theorem wrap8_add_toNat (a b : Nat) : (wrap8 ((a : Int) + (b : Int))).toNat = (a + b) % 256 := by
  rw [← Int.natCast_add, wrap8_natCast_toNat]

/-- Only the low 8 bits of an addend enter a wrapped sum. -/
theorem wrap8_add_congr_right (a : Nat) {b c : Nat} (h : b % 256 = c % 256) :
    wrap8 ((a : Int) + (b : Int)) = wrap8 ((a : Int) + (c : Int)) :=
  BitVec.eq_of_toNat_eq (by rw [wrap8_add_toNat, wrap8_add_toNat, Nat.add_mod, h, ← Nat.add_mod])

/-! ## The five instructions (R80 to R84) -/

/-- Settles O12: the byte written is a wrapped sum. -/
theorem addWritesTheSumModulo256 : Obligations.AddWritesTheSumModulo256 := by
  intro d a b s
  obtain ⟨t, ht, hread, hframe⟩ := s.retireReg_next d (wrap8 ((s.readReg a).toNat + (s.readReg b).toNat))
  exact ⟨t, ht, by rw [hread, wrap8_add_toNat], hframe⟩

/-- Settles O13: the byte written is a wrapped integer difference. -/
theorem subWritesTheDifferenceModulo256 : Obligations.SubWritesTheDifferenceModulo256 := by
  intro d a b s
  obtain ⟨t, ht, hread, hframe⟩ := s.retireReg_next d (wrap8 ((s.readReg a).toNat - (s.readReg b).toNat))
  exact ⟨t, ht, by rw [hread, wrap8_toNat], hframe⟩

/-- Settles O14: the byte written is the old value of the source. -/
theorem moveCopiesTheRegister : Obligations.MoveCopiesTheRegister :=
  fun d a s => s.retireReg_next d (s.readReg a)

/-- Settles O15: the byte written is a wrapped sum, which depends on the immediate through its low 8 bits alone. -/
theorem addiAddsTheUnsignedImmediate : Obligations.AddiAddsTheUnsignedImmediate := by
  intro d imm s
  obtain ⟨t, ht, hread, hregs, hpc, hmem⟩ := s.retireReg_next d (wrap8 ((s.readReg d).toNat + imm))
  refine ⟨t, ht, by rw [hread, wrap8_add_toNat], hregs, hpc, hmem, fun imm' himm => ?_⟩
  calc exec (.addi d imm') s
    _ = s.retireReg d (wrap8 ((s.readReg d).toNat + imm')) := rfl
    _ = s.retireReg d (wrap8 ((s.readReg d).toNat + imm)) := by rw [wrap8_add_congr_right _ himm]
    _ = .next t := ht

/-- Settles O16: the byte written is the wrapped immediate. -/
theorem setiWritesTheImmediateModulo256 : Obligations.SetiWritesTheImmediateModulo256 := by
  intro d imm s
  obtain ⟨t, ht, hread, hframe⟩ := s.retireReg_next d (wrap8 imm)
  exact ⟨t, ht, by rw [hread, wrap8_natCast_toNat], hframe⟩

end Sys2Proof.Machine

/-! # Proofs: the control-transfer family (42_control_transfer.md)

BEQ, BNE and BLT end in `State.branchIf` and differ in the condition; JR and JAL jump to an absolute target. -/

namespace Sys2Proof.Machine

/-! ## The conditional branches (R90 to R93) -/

/-- A conditional branch completes: `pc` is the target when its condition holds and the next index when it does not, and
nothing else changes. `P` is the proposition the condition decides. -/
theorem State.branchIf_next (s : State) {taken : Bool} {P : Prop} (hP : taken = true ↔ P) (imm : Nat) :
    ∃ t, s.branchIf taken imm = .next t ∧
      (P → (t.pc.toNat : Int) = ((s.pc.toNat : Int) + sext9 imm) % 8192) ∧
      (¬ P → t.pc.toNat = (s.pc.toNat + 1) % 8192) ∧
      SameRegs s t ∧ SameMemories s t := by
  refine ⟨_, rfl, fun hp => ?_, fun hp => ?_, sameRegs_setPc s _, sameMemories_setPc s _⟩
  · rw [State.setPc_pc, if_pos (hP.mpr hp), s.branchTarget_toNat]
  · rw [State.setPc_pc, if_neg (mt hP.mp hp), s.nextPc_toNat]

/-- BLT's condition is the order of the two's-complement values. -/
theorem State.lessThanBranchReg_iff (s : State) (d : Reg) :
    s.lessThanBranchReg d = true ↔ (s.readReg d).toInt < (s.readReg 6).toInt := by
  rw [State.lessThanBranchReg, decide_eq_true_iff, signed8_eq_toInt, signed8_eq_toInt]

/-- Settles O21: the condition decides equality. -/
theorem beqBranchesWhenEqual : Obligations.BeqBranchesWhenEqual :=
  fun _ imm s _ => s.branchIf_next beq_iff_eq imm

/-- Settles O22: the condition decides inequality. -/
theorem bneBranchesWhenDifferent : Obligations.BneBranchesWhenDifferent := by
  intro d imm s _
  obtain ⟨t, ht, htaken, hnext, hframe⟩ := s.branchIf_next (taken := s.differsFromBranchReg d) bne_iff_ne imm
  exact ⟨t, ht, htaken, fun heq => hnext (not_not_intro heq), hframe⟩

/-- Settles O23: the condition decides the signed order. -/
theorem bltBranchesWhenSignedLess : Obligations.BltBranchesWhenSignedLess :=
  fun d imm s _ => s.branchIf_next (s.lessThanBranchReg_iff d) imm

/-! ## JR and JAL (R94, R95) -/

/-- Settles O24: the target is the zero extension of the register. -/
theorem jrJumpsToTheRegister : Obligations.JrJumpsToTheRegister :=
  fun a s => ⟨_, rfl, zext13_toNat (s.readReg a), sameRegs_setPc s _, sameMemories_setPc s _⟩

/-- Settles O25: a 12-bit target is below 8192, so it is not wrapped. -/
theorem jalLinksAndJumps : Obligations.JalLinksAndJumps := by
  intro imm s himm
  refine ⟨_, rfl, ?_, ?_, sameRegsBut_setPc_writeReg s 7 _ _, sameMemories_setPc_writeReg s 7 _ _⟩
  · rw [State.setPc_pc, wrap13_natCast_toNat, Nat.mod_eq_of_lt (by omega)]
  · rw [readReg_setPc_writeReg_same, s.linkValue_toNat]

/-! ## Call and return (R96) -/

/-- Settles O32: JR goes to the link, and up to index 254 the 8-bit link is the whole index after the JAL. -/
theorem callReturnsToTheNextIndex : Obligations.CallReturnsToTheNextIndex := by
  intro imm s himm hpc
  obtain ⟨t, ht, -, hlink, -⟩ := jalLinksAndJumps imm s himm
  refine ⟨t, ht, fun u hu => ?_⟩
  obtain ⟨v, hv, htarget, -⟩ := jrJumpsToTheRegister 7 u
  refine ⟨v, hv, ?_⟩
  calc v.pc.toNat
    _ = (u.readReg 7).toNat := htarget
    _ = (s.pc.toNat + 1) % 256 := by rw [hu, hlink]
    _ = s.pc.toNat + 1 := Nat.mod_eq_of_lt (by omega)

end Sys2Proof.Machine

/-! # Proofs: the family of the unrecognized opcodes (43_unrecognized_opcodes.md)

An undefined opcode is a fixed point of the step, so the drivers stay where they are. -/

namespace Sys2Proof.Machine

/-! ## One step (R100) -/

/-- The instructions with opcodes 1100 to 1111 change nothing. -/
theorem exec_of_undefined_opcode {i : Instr} (hi : 12 ≤ i.opcode.val) (s : State) : exec i s = .next s := by
  cases i with
  | undefined1100 | undefined1101 | undefined1110 | undefined1111 => rfl
  | _ => simp [Instr.opcode] at hi

/-- A state whose word at `pc` has an undefined opcode is a fixed point of the step. -/
theorem step_of_undefined_word {s : State} {w : InstrWord} (hw : s.imem[s.pc.toNat]? = some w)
    (hop : 12 ≤ w.toNat / 4096) : step s = .next s := by
  have hi : 12 ≤ (decode w).opcode.val := by rwa [decode_opcode, decodeFields_opcode_val]
  rw [step_of_word hw, exec_of_undefined_opcode hi]

/-- Settles O26: each of the four instructions stalls, and the step runs one of them. -/
theorem undefinedOpcodesChangeNothing : Obligations.UndefinedOpcodesChangeNothing :=
  fun _ => ⟨rfl, rfl, rfl, rfl, fun _ => step_of_undefined_word⟩

/-! ## The drivers at a fixed point (R100, R128) -/

/-- `RunUntil` to another index never returns from a state that a step leaves as it is. -/
theorem runUntilHangs_of_fixed {b : Int} {s : State} (h : step s = .next s) (hb : b ≠ s.pc.toNat) :
    RunUntilHangs b s := by
  intro fuel
  induction fuel with
  | zero => rfl
  | succ fuel ih => rw [runUntil_of_next h, if_neg hb.symm, ih]

/-- Settles O49: the state is a fixed point of the step, where `StepN` stays and `RunUntil` never arrives. -/
theorem undefinedOpcodeStallsForever : Obligations.UndefinedOpcodeStallsForever := by
  intro s w hw hop
  have hfixed : step s = .next s := step_of_undefined_word hw hop
  exact ⟨stepN_of_fixed hfixed, fun _ hb => runUntilHangs_of_fixed hfixed hb⟩

end Sys2Proof.Machine

/-! # Proofs: the exceptions family (60_exceptions.md)

Every way a step can end, that a fault repeats, and the host events SetButtons, Observe and RunUntil. -/

namespace Sys2Proof.Machine

/-! ## How a step ends (R110, R111, R113) -/

/-- Settles O20: the store path past the last pixel. -/
theorem storeByteFrom192Faults : Obligations.StoreByteFrom192Faults :=
  fun _ _ _ h => execSb_outOfRange h

/-- An instruction completes, or it is an SB to 192 or above. -/
theorem exec_next_or_sb (i : Instr) (s : State) :
    (∃ t, exec i s = .next t) ∨ ∃ a b, i = .sb a b ∧ 192 ≤ (s.readReg b).toNat := by
  cases i with
  | sb a b =>
    rcases storeAddress_cases (s.readReg b) with h | ⟨h, h'⟩ | h
    · exact .inl ⟨_, execSb_ram h⟩
    · exact .inl ⟨_, execSb_pixel h h'⟩
    · exact .inr ⟨a, b, rfl, h⟩
  | _ => exact .inl ⟨_, rfl⟩

/-- Settles O10: by the fetch, then by the instruction fetched. -/
theorem stepHasExactlyThreeOutcomes : Obligations.StepHasExactlyThreeOutcomes := by
  intro s
  rcases fetch_cases s with ⟨w, hw⟩ | hout
  · have hstep : step s = exec (decode w) s := step_of_word hw
    rcases exec_next_or_sb (decode w) s with ⟨t, ht⟩ | ⟨a, b, hsb, haddr⟩
    · have hnext : step s = .next t := hstep.trans ht
      exact .inl ⟨⟨t, hnext⟩, pc_lt_length_of_step hnext⟩
    · exact .inr (.inr ⟨w, a, b, hw, hsb, haddr, by rw [hstep, hsb, storeByteFrom192Faults a b s haddr]⟩)
  · exact .inr (.inl ⟨hout, step_of_outside hout⟩)

/-- Settles O9: of the three outcomes only the fetch outside the image is this fault. -/
theorem fetchFaultsExactlyOutsideTheImage : Obligations.FetchFaultsExactlyOutsideTheImage := by
  intro s p
  constructor
  · intro h
    rcases stepHasExactlyThreeOutcomes s with ⟨⟨t, ht⟩, -⟩ | ⟨hout, hf⟩ | ⟨w, a, b, -, -, -, hf⟩
    · rw [ht] at h; cases h
    · rw [hf] at h; cases h; exact ⟨hout, rfl⟩
    · rw [hf] at h; cases h
  · rintro ⟨hout, rfl⟩
    exact step_of_outside hout

/-- Nothing is refused. -/
theorem step_next_or_fault (s : State) : (∃ t, step s = .next t) ∨ ∃ f, step s = .fault f := by
  rcases stepHasExactlyThreeOutcomes s with ⟨hnext, -⟩ | ⟨-, hf⟩ | ⟨_, _, _, -, -, -, hf⟩
  · exact .inl hnext
  · exact .inr ⟨_, hf⟩
  · exact .inr ⟨_, hf⟩

/-! ## A fault repeats (R112) -/

/-- Settles O48: a step that faults runs no LB, and no other instruction reads the buttons. -/
theorem faultRepeatsUnderStepsAndButtons : Obligations.FaultRepeatsUnderStepsAndButtons := by
  intro s f hf
  refine ⟨stepN_of_fault hf, fun pattern t ht => ?_⟩
  obtain ⟨b, rfl⟩ := State.setButtons_eq ht
  have hnoload : ∀ w d r, s.imem[s.pc.toNat]? = some w → decode w ≠ .lb d r := by
    intro w d r hw hlb
    rw [step_of_word hw, hlb] at hf
    cases hf
  rw [step_withButtons (fun w d r hw hlb => absurd hlb (hnoload w d r hw)) b, hf, mapNext_fault]

/-! ## SetButtons (R123) -/

theorem bitOfChar_of_digit {c : Char} (h : c = '0' ∨ c = '1') : bitOfChar c = some (if c = '1' then 1 else 0) := by
  rcases h with rfl | rfl <;> rfl

theorem digit_of_bitOfChar {c : Char} {b : Bit} (h : bitOfChar c = some b) : c = '0' ∨ c = '1' := by
  unfold bitOfChar at h
  split at h
  · next h0 => exact .inl h0
  · split at h
    · next h1 => exact .inr h1
    · cases h

theorem State.setButtons_of_digits (s : State) {c0 c1 c2 : Char} (h : ∀ c ∈ [c0, c1, c2], c = '0' ∨ c = '1') :
    s.setButtons [c0, c1, c2] = .ok { s with
      btn := #v[if c0 = '1' then 1 else 0, if c1 = '1' then 1 else 0, if c2 = '1' then 1 else 0] } := by
  simp only [State.setButtons, bitOfChar_of_digit (h c0 (by simp)), bitOfChar_of_digit (h c1 (by simp)),
    bitOfChar_of_digit (h c2 (by simp))]

/-- `SetButtons` takes nothing but three digits. -/
theorem State.pattern_of_setButtons {s t : State} {pattern : List Char} (h : s.setButtons pattern = .ok t) :
    pattern.length = 3 ∧ ∀ c ∈ pattern, c = '0' ∨ c = '1' := by
  unfold State.setButtons at h
  split at h
  · split at h
    · next h0 h1 h2 => simp [digit_of_bitOfChar h0, digit_of_bitOfChar h1, digit_of_bitOfChar h2]
    · cases h
  · cases h

theorem Event.run_setButtons_ok {s t : State} {pattern : List Char} (fuel : Nat) (h : s.setButtons pattern = .ok t) :
    (Event.setButtons pattern).run fuel s = some (t, .done) := by
  simp only [Event.run, h]

theorem Event.run_setButtons_error {s : State} {pattern : List Char} {e : ButtonError} (fuel : Nat)
    (h : s.setButtons pattern = .error e) :
    (Event.setButtons pattern).run fuel s = some (s, .buttonsFailed e) := by
  simp only [Event.run, h]

/-- Settles O45: three digits are taken, and whatever is taken is three digits. -/
theorem setButtonsWritesTheLatchOrNothing : Obligations.SetButtonsWritesTheLatchOrNothing := by
  intro s pattern fuel
  constructor
  · rintro ⟨hlen, hdigits⟩
    obtain ⟨c0, c1, c2, rfl⟩ := List.length_eq_three.mp hlen
    refine ⟨_, Event.run_setButtons_ok fuel (s.setButtons_of_digits hdigits), fun k => ?_, rfl, fun _ => rfl,
      fun _ => rfl, fun _ _ => rfl, rfl⟩
    match k with
    | 0 | 1 | 2 => simp [State.readButton]
  · intro hbad
    cases hs : s.setButtons pattern with
    | ok t => exact absurd (State.pattern_of_setButtons hs) hbad
    | error e =>
      cases e
      exact Event.run_setButtons_error fuel hs

/-! ## Observe (R24, R129) -/

theorem State.observe_regs (s : State) (r : Reg) : s.observe.regs[r.val]? = some (s.readReg r) := by
  simp [State.observe, State.readReg]

theorem State.observe_dmem (s : State) (a : Byte) : s.observe.dmem[a.toNat]? = some (s.readDmem a) := by
  simp [State.observe, State.readDmem, List.getElem?_range a.isLt]

theorem State.observe_btn (s : State) (k : Fin 3) : s.observe.btn[k.val]? = some (s.readButton k) := by
  simp [State.observe, State.readButton]

theorem State.observe_pix (s : State) (r c : Fin 8) :
    (s.observe.pix[r.val]?.bind (·[c.val]?)) = some (s.readPixel r c) := by
  simp [State.observe, State.readPixel]

/-- Canonical data memories with the same 256 cells are the same list (R17). -/
theorem State.dmem_eq_of_observe {s t : State} (hs : s.Inv) (ht : t.Inv) (h : s.observe.dmem = t.observe.dmem) :
    s.dmem = t.dmem := by
  obtain ⟨hs, -, -⟩ := hs
  obtain ⟨ht, -, -⟩ := ht
  exact Memory.ext_of_wfFrom hs ht fun a ha => List.map_inj_left.mp h a (List.mem_range.mpr ha)

/-- States that meet the invariant are told apart by their snapshots. -/
theorem State.eq_of_observe {s t : State} (hs : s.Inv) (ht : t.Inv) (h : s.observe = t.observe) : s = t := by
  have hpc : s.pc = t.pc := congrArg Snapshot.pc h
  have hx : s.x = t.x := Vector.toList_inj.mp (congrArg Snapshot.regs h)
  have hdmem : s.dmem = t.dmem := State.dmem_eq_of_observe hs ht (congrArg Snapshot.dmem h)
  have hbtn : s.btn = t.btn := Vector.toList_inj.mp (congrArg Snapshot.btn h)
  have hpix : s.pix = t.pix := Vector.toList_inj.mp
    (List.map_injective_iff.mpr (fun _ _ => Vector.toList_inj.mp) (congrArg Snapshot.pix h))
  have himem : s.imem = t.imem := congrArg Snapshot.imem h
  cases s; cases t
  rw [State.mk.injEq]
  exact ⟨hpc, hx, hdmem, hbtn, hpix, himem⟩

/-- Settles O46: the snapshot component by component, and `State.eq_of_observe`. -/
theorem snapshotDeterminesTheState : Obligations.SnapshotDeterminesTheState :=
  ⟨fun _ _ => rfl,
    fun s => ⟨rfl, rfl, s.observe_regs, s.observe_dmem, s.observe_btn, s.observe_pix⟩,
    fun _ _ => State.eq_of_observe⟩

/-! ## RunUntil (R128) -/

/-- `n + 1` steps complete in `t` at the breakpoint, and none of the first `n` steps ends there. -/
def FirstArrival (b : Int) (n : Nat) (s t : State) : Prop :=
  stepN (n + 1) s = (t, .completed) ∧ (t.pc.toNat : Int) = b ∧
    ∀ m < n, ((stepN (m + 1) s).1.pc.toNat : Int) ≠ b

theorem firstArrival_zero {b : Int} {s t u : State} (h : step s = .next u) :
    FirstArrival b 0 s t ↔ u = t ∧ (u.pc.toNat : Int) = b := by
  simp only [FirstArrival, stepN_of_next h, stepN_zero, Prod.mk.injEq, and_true, Nat.not_lt_zero, false_imp_iff,
    implies_true]
  exact and_congr_right fun hut => by rw [hut]

/-- An arrival after the first step is an arrival of the state after it, which is not itself at the breakpoint. -/
theorem firstArrival_succ {b : Int} {n : Nat} {s t u : State} (h : step s = .next u) :
    FirstArrival b (n + 1) s t ↔ (u.pc.toNat : Int) ≠ b ∧ FirstArrival b n u t := by
  simp only [FirstArrival, stepN_of_next h, Nat.forall_lt_succ_left, stepN_zero]
  tauto

theorem not_firstArrival_of_fault {b : Int} {n : Nat} {s t : State} {f : Fault} (h : step s = .fault f) :
    ¬ FirstArrival b n s t := by
  rintro ⟨harrive, -⟩
  rw [stepN_of_fault h] at harrive
  cases harrive

/-- `RunUntil` completes exactly at a first arrival within the steps it is looked at for. -/
theorem runUntil_completed_iff (b : Int) (fuel : Nat) (s t : State) :
    runUntil b fuel s = some (t, .completed) ↔ ∃ n < fuel, FirstArrival b n s t := by
  induction fuel generalizing s with
  | zero => simp
  | succ fuel ih =>
    rcases step_next_or_fault s with ⟨u, hu⟩ | ⟨f, hf⟩
    · rw [runUntil_of_next hu, Nat.exists_lt_succ_left, firstArrival_zero hu]
      simp only [firstArrival_succ hu]
      by_cases hb : (u.pc.toNat : Int) = b
      · simp [hb]
      · simp [hb, ih]
    · simp [runUntil_of_fault hf, not_firstArrival_of_fault hf]

/-- Settles O50: the number of steps, which is positive, is one more than the steps before the arrival. -/
theorem runUntilStopsAtTheFirstArrival : Obligations.RunUntilStopsAtTheFirstArrival := by
  intro b fuel s t
  rw [runUntil_completed_iff]
  constructor
  · rintro ⟨n, hn, harrive, hpc, hbefore⟩
    refine ⟨n + 1, n.succ_pos, hn, harrive, hpc, fun m hm hmn => ?_⟩
    obtain ⟨m, rfl⟩ := Nat.exists_eq_add_one.mpr hm
    exact hbefore m (by omega)
  · rintro ⟨n, hpos, hn, harrive, hpc, hbefore⟩
    obtain ⟨n, rfl⟩ := Nat.exists_eq_add_one.mpr hpos
    exact ⟨n, hn, harrive, hpc, fun m hm => hbefore (m + 1) m.succ_pos (by omega)⟩

end Sys2Proof.Machine

/-! # Proofs: the reset and hazards family (70_reset_and_hazards.md)

The step, the drivers that repeat it, the fixed points, and the host events Reset and Load. -/

namespace Sys2Proof.Machine

/-! ## The step (R141) -/

/-- Settles O8: the fetch gives the word or the fault. -/
theorem stepRunsTheDecodedInstruction : Obligations.StepRunsTheDecodedInstruction :=
  fun _ => ⟨fun _ => step_of_word, fun h => step_of_outside (List.getElem?_eq_none_iff.mp h)⟩

/-- Inside the image the placing fills no gap, so it is the update of one entry. -/
theorem imageWithWordAt_of_lt {image : List InstrWord} {i : Nat} (h : i < image.length) (w : InstrWord) :
    imageWithWordAt image i w = image.set i w := by
  rw [imageWithWordAt, Nat.sub_eq_zero_of_le h, List.replicate_zero, List.append_nil]

theorem State.withFetchWord_imem (s : State) (w : InstrWord) :
    (s.withFetchWord 16 w.toNat).imem = imageWithWordAt s.imem s.pc.toNat w := by
  rw [State.withFetchWord, Nat.mod_eq_of_lt w.isLt, BitVec.ofNat_toNat, BitVec.setWidth_eq]

/-- Settles O11: the placed word is the one fetched, and the placing writes instruction memory alone. -/
theorem placedWordIsTheOneRun : Obligations.PlacedWordIsTheOneRun := by
  intro s w
  have himem := s.withFetchWord_imem w
  refine ⟨step_of_word ?_, rfl, fun _ => rfl, fun _ => rfl, fun _ => rfl, fun _ _ => rfl, fun hin j hj => ?_⟩
  · rw [himem]
    exact imageWithWordAt_getElem? _ _ _
  · rw [himem, imageWithWordAt_of_lt hin, List.getElem?_set_ne hj.symm]

/-! ## The fixed points of the step (R151) -/

theorem next_inj {s t : State} : (.next s : StepResult) = .next t ↔ s = t :=
  ⟨fun h => by cases h; rfl, fun h => by rw [h]⟩

theorem State.setPc_eq_self_iff {s : State} {p : Pc} : s.setPc p = s ↔ p = s.pc :=
  ⟨fun h => congrArg State.pc h, fun h => by rw [h]; rfl⟩

theorem State.setPc_writeReg_eq_self_iff {s : State} {d : Reg} {v : Byte} {p : Pc} :
    (s.writeReg d v).setPc p = s ↔ s.readReg d = v ∧ p = s.pc := by
  constructor
  · intro h
    exact ⟨by rw [← readReg_setPc_writeReg_same s d v p, h], congrArg State.pc h⟩
  · rintro ⟨rfl, rfl⟩
    have hx : s.x.set d s.x[d] = s.x := Vector.set_getElem_self d.isLt
    simp only [State.setPc, State.writeReg, State.readReg, hx]

/-- The target of a branch is the branch itself only when the immediate is 0: the offset is smaller than the number of
indices. -/
theorem State.branchTarget_eq_pc_iff (s : State) {imm : Nat} (himm : imm < 512) :
    s.branchTarget imm = s.pc ↔ imm = 0 := by
  have htarget := s.branchTarget_toNat imm
  have hpc := s.pc.isLt
  rw [← BitVec.toNat_inj]
  unfold sext9 at htarget
  split at htarget <;> omega

/-- A conditional branch stays where it is exactly when it is taken with immediate 0. -/
theorem State.branchIf_eq_self_iff (s : State) (taken : Bool) {imm : Nat} (himm : imm < 512) :
    s.branchIf taken imm = .next s ↔ (taken && decide (imm = 0)) = true := by
  rw [State.branchIf, next_inj, State.setPc_eq_self_iff]
  cases taken with
  | false => exact iff_of_false s.nextPc_ne Bool.false_ne_true
  | true => rw [if_pos rfl, s.branchTarget_eq_pc_iff himm, Bool.true_and, decide_eq_true_iff]

theorem execJr_eq_self_iff {a : Reg} {s : State} :
    execJr a s = .next s ↔ (s.readReg a).toNat = s.pc.toNat := by
  rw [execJr, next_inj, State.setPc_eq_self_iff, ← BitVec.toNat_inj, zext13_toNat]

theorem execJal_eq_self_iff {imm : Nat} {s : State} (himm : imm < 4096) :
    execJal imm s = .next s ↔ imm = s.pc.toNat ∧ (s.readReg 7).toNat = (s.pc.toNat + 1) % 256 := by
  rw [execJal, next_inj, State.setPc_writeReg_eq_self_iff, ← BitVec.toNat_inj, ← BitVec.toNat_inj, s.linkValue_toNat,
    wrap13_natCast_toNat, Nat.mod_eq_of_lt (show imm < 8192 by omega), and_comm]

/-- A well-formed instruction changes nothing exactly when it is of one of R151's four kinds; those that always go on to
the next index never are. -/
theorem exec_eq_self_iff {i : Instr} {s : State} (hi : i.wf = true) :
    exec i s = .next s ↔ holdsStill i s = true := by
  cases i with
  | lb _ _ | sb _ _ | add _ _ _ | sub _ _ _ | move _ _ | addi _ _ | seti _ _ =>
    exact iff_of_false (fun h => s.nextPc_ne (exec_pc h).symm) Bool.false_ne_true
  | beq d imm | bne d imm | blt d imm => exact s.branchIf_eq_self_iff _ (of_decide_eq_true hi)
  | jr a => exact execJr_eq_self_iff.trans decide_eq_true_iff.symm
  | jal imm =>
    rw [holdsStill, Bool.and_eq_true, decide_eq_true_iff, decide_eq_true_iff]
    exact execJal_eq_self_iff (of_decide_eq_true hi)
  | undefined1100 | undefined1101 | undefined1110 | undefined1111 => exact iff_of_true rfl rfl

/-- Settles O36: a step that completes has run a word, and every word stands for a well-formed instruction. -/
theorem fixedPointsAreExactlyTheFourKinds : Obligations.FixedPointsAreExactlyTheFourKinds := by
  intro s
  constructor
  · intro h
    obtain ⟨w, hw, hx⟩ := step_cases h
    exact ⟨w, hw, (exec_eq_self_iff (decode_wf w)).mp hx⟩
  · rintro ⟨w, hw, hstill⟩
    rw [step_of_word hw]
    exact (exec_eq_self_iff (decode_wf w)).mpr hstill

/-! ## StepN (R142) -/

/-- Settles O47: by induction on the first `m` steps. -/
theorem stepNComposes : Obligations.StepNComposes := by
  intro m n s
  induction m generalizing s with
  | zero => exact ⟨fun _ => by rw [Nat.zero_add, stepN_zero], fun h => absurd rfl h⟩
  | succ m ih =>
    rw [Nat.add_right_comm]
    rcases step_next_or_fault s with ⟨t, ht⟩ | ⟨f, hf⟩
    · rw [stepN_of_next ht, stepN_of_next ht]
      exact ih t
    · rw [stepN_of_fault hf, stepN_of_fault hf]
      exact ⟨(nomatch ·), fun _ => rfl⟩

theorem stepN_add {m : Nat} {s : State} (h : (stepN m s).2 = .completed) (n : Nat) :
    stepN (m + n) s = stepN n (stepN m s).1 :=
  (stepNComposes m n s).1 h

/-- The first of a number of steps that complete have completed. -/
theorem stepN_completed_of_add {m n : Nat} {s : State} (h : (stepN (m + n) s).2 = .completed) :
    (stepN m s).2 = .completed := by
  by_contra hm
  rw [(stepNComposes m n s).2 hm] at h
  exact hm h

/-- What every step keeps, any number of steps keeps. -/
theorem stepN_keeps {P : State → Prop} (hP : ∀ s t, P s → step s = .next t → P t) (n : Nat) {s : State} (h : P s) :
    P (stepN n s).1 := by
  induction n generalizing s with
  | zero => exact h
  | succ n ih =>
    rcases step_next_or_fault s with ⟨t, ht⟩ | ⟨f, hf⟩
    · rw [stepN_of_next ht]
      exact ih (hP s t h ht)
    · rw [stepN_of_fault hf]
      exact h

theorem stepN_imem (n : Nat) (s : State) : (stepN n s).1.imem = s.imem :=
  stepN_keeps (P := fun u => u.imem = s.imem) (fun _ _ hu h => (step_btn_imem h).2.trans hu) n rfl

/-! ## WatchN (R152) -/

/-- To the state, and in its report, `WatchN` is `StepN`. -/
theorem watchFrom_fst (i n : Nat) (s : State) : (watchFrom i n s).1 = stepN n s := by
  induction n generalizing i s with
  | zero => rfl
  | succ n ih =>
    rcases step_next_or_fault s with ⟨t, ht⟩ | ⟨f, hf⟩
    · simp only [watchFrom, ht, ih, stepN_of_next ht]
    · simp only [watchFrom, hf, stepN_of_fault hf]

theorem watchFrom_calls_of_next {s t : State} (h : step s = .next t) (i n : Nat) :
    (watchFrom i (n + 1) s).2 = (if i % 50 = 0 then [t.observe] else []) ++ (watchFrom (i + 1) n t).2 := by
  simp only [watchFrom, h, Config.watchPeriod]
  split <;> rfl

theorem watchFrom_calls_of_fault {s : State} {f : Fault} (h : step s = .fault f) (i n : Nat) :
    (watchFrom i (n + 1) s).2 =
      if i % 50 = 0 ∧ Config.callbackAfterFaultingStep i = true then [s.observe] else [] := by
  simp only [watchFrom, h, Config.watchPeriod]

/-- The calls of `m + n` steps are those of `m` steps that complete and then those of the `n` after them. -/
theorem watchFrom_calls_add {m : Nat} {s : State} (h : (stepN m s).2 = .completed) (i n : Nat) :
    (watchFrom i (m + n) s).2 = (watchFrom i m s).2 ++ (watchFrom (i + m) n (stepN m s).1).2 := by
  induction m generalizing i s with
  | zero => rw [Nat.zero_add]; rfl
  | succ m ih =>
    rcases step_next_or_fault s with ⟨t, ht⟩ | ⟨f, hf⟩
    · rw [stepN_of_next ht] at h ⊢
      rw [Nat.add_right_comm, watchFrom_calls_of_next ht, watchFrom_calls_of_next ht, ih h, List.append_assoc,
        Nat.add_assoc, Nat.add_comm 1 m]
    · rw [stepN_of_fault hf] at h
      cases h

/-- Steps that complete make one call for each multiple of 50 among their indices: as many as there are below the index
after the last less those below the first. -/
theorem watchFrom_calls_length {n : Nat} {s : State} (h : (stepN n s).2 = .completed) (i : Nat) :
    (watchFrom i n s).2.length + (i + 49) / 50 = (i + n + 49) / 50 := by
  induction n generalizing i s with
  | zero => simp [watchFrom]
  | succ n ih =>
    rcases step_next_or_fault s with ⟨t, ht⟩ | ⟨f, hf⟩
    · rw [stepN_of_next ht] at h
      have hrest := ih h (i + 1)
      rw [watchFrom_calls_of_next ht, List.length_append]
      split <;> simp only [List.length_cons, List.length_nil] <;> omega
    · rw [stepN_of_fault hf] at h
      cases h

theorem watchN_calls_length {n : Nat} {s : State} (h : (stepN n s).2 = .completed) :
    (watchN n s).2.length = (n + 49) / 50 := by
  have hcount : (watchN n s).2.length + (0 + 49) / 50 = (0 + n + 49) / 50 := watchFrom_calls_length h 0
  omega

/-- After `k` steps that complete, the calls are theirs and then those of the steps from index `k` on. -/
theorem watchN_calls_add {k : Nat} {s : State} (h : (stepN k s).2 = .completed) (n : Nat) :
    (watchN (k + n) s).2 = (watchN k s).2 ++ (watchFrom k n (stepN k s).1).2 := by
  simpa only [watchN, Nat.zero_add] using watchFrom_calls_add h 0 n

/-- Call `j` shows the state after the step with index `50 * j`, if that step completes. -/
theorem watchN_call {n j : Nat} {s : State} (hj : 50 * j < n) (h : (stepN (50 * j + 1) s).2 = .completed) :
    (watchN n s).2[j]? = some (stepN (50 * j + 1) s).1.observe := by
  obtain ⟨r, rfl⟩ := Nat.exists_eq_add_of_lt hj
  have hbefore := stepN_completed_of_add h
  have hlen : (watchN (50 * j) s).2.length = j := by rw [watchN_calls_length hbefore]; omega
  rw [stepN_add hbefore] at h ⊢
  rcases step_next_or_fault (stepN (50 * j) s).1 with ⟨t, ht⟩ | ⟨f, hf⟩
  · rw [Nat.add_assoc, watchN_calls_add hbefore, List.getElem?_append_right hlen.le, hlen, Nat.sub_self,
      watchFrom_calls_of_next ht, if_pos (Nat.mul_mod_right 50 j), stepN_of_next ht]
    rfl
  · rw [stepN_of_fault hf] at h
    cases h

/-- When the step with index `k` faults, the calls are those of the `k` steps before it and at most one more, for the
faulting step. -/
theorem watchN_calls_of_fault {n k : Nat} {s : State} {f : Fault} (hk : k < n) (h : (stepN k s).2 = .completed)
    (hf : step (stepN k s).1 = .fault f) :
    (watchN n s).2 = (watchN k s).2 ∨
      k % 50 = 0 ∧ (watchN n s).2 = (watchN k s).2 ++ [(stepN k s).1.observe] := by
  obtain ⟨r, rfl⟩ := Nat.exists_eq_add_of_lt hk
  rw [Nat.add_assoc, watchN_calls_add h, watchFrom_calls_of_fault hf]
  split
  next hcall =>
    obtain ⟨hdue, -⟩ := hcall
    exact .inr ⟨hdue, rfl⟩
  next => exact .inl (List.append_nil _)

/-- Settles O51: the state and report by `watchFrom_fst`, each due call by `watchN_call`, and their number with and
without a fault. -/
theorem watchNIsStepNWithACallEveryFiftySteps : Obligations.WatchNIsStepNWithACallEveryFiftySteps := by
  refine fun n s => ⟨watchFrom_fst 0 n s, fun _ => watchN_call, watchN_calls_length, fun k f hk h hf => ?_⟩
  have hlen := watchN_calls_length h
  rcases watchN_calls_of_fault hk h hf with hcalls | ⟨hdue, hcalls⟩
  · exact .inl (by rw [hcalls, hlen])
  · refine .inr ⟨hdue, by rw [hcalls, List.length_append, hlen]; rfl, ?_⟩
    rw [hcalls, ← hlen, List.getElem?_concat_length]

/-! ## The events and the invariant (R119, R124, R140, R149) -/

/-- A `RunUntil` that returns gives what some number of steps gives. -/
theorem runUntil_eq_stepN {b : Int} {fuel : Nat} {s : State} {r : State × Report} (h : runUntil b fuel s = some r) :
    ∃ n, r = stepN n s := by
  induction fuel generalizing s with
  | zero => cases h
  | succ fuel ih =>
    rcases step_next_or_fault s with ⟨t, ht⟩ | ⟨f, hf⟩
    · rw [runUntil_of_next ht] at h
      split at h
      · cases h
        exact ⟨1, (stepN_of_next ht 0).symm⟩
      · obtain ⟨n, hn⟩ := ih h
        exact ⟨n + 1, by rw [stepN_of_next ht, hn]⟩
    · rw [runUntil_of_fault hf] at h
      cases h
      exact ⟨1, (stepN_of_fault hf 0).symm⟩

theorem Event.run_load_ok {source : List Char} {t : State} (fuel : Nat) (s : State) (h : Machine.load source = .ok t) :
    (Event.load source).run fuel s = some (t, .done) := by
  simp only [Event.run, h]

theorem Event.run_load_error {source : List Char} {e : LoadError} (fuel : Nat) (s : State)
    (h : Machine.load source = .error e) : (Event.load source).run fuel s = some (s, .loadFailed e) := by
  simp only [Event.run, h]

/-- Everything an event can do to the state: some number of steps, none among them; a `Reset`; a `Load`; a new button
pattern. -/
theorem Event.run_cases {fuel : Nat} {e : Event} {s t : State} {a : Answer} (h : e.run fuel s = some (t, a)) :
    (∃ n, t = (Machine.stepN n s).1) ∨ t = s.hostReset ∨ (∃ source, Machine.load source = .ok t) ∨
      ∃ b, t = { s with btn := b } := by
  cases e with
  | step => cases h; exact .inl ⟨1, rfl⟩
  | stepN n => cases h; exact .inl ⟨n, rfl⟩
  | runUntil b =>
    simp only [Event.run] at h
    split at h
    next hr =>
      cases h
      obtain ⟨n, hn⟩ := runUntil_eq_stepN hr
      exact .inl ⟨n, by rw [← hn]⟩
    next => cases h
  | watchN n => cases h; exact .inl ⟨n, by rw [Machine.watchN, watchFrom_fst]⟩
  | reset => cases h; exact .inr (.inl rfl)
  | load source =>
    cases hl : Machine.load source with
    | ok u => rw [Event.run_load_ok fuel s hl] at h; cases h; exact .inr (.inr (.inl ⟨source, hl⟩))
    | error err => rw [Event.run_load_error fuel s hl] at h; cases h; exact .inl ⟨0, rfl⟩
  | setButtons pattern =>
    cases hb : s.setButtons pattern with
    | ok u =>
      rw [Event.run_setButtons_ok fuel hb] at h
      cases h
      exact .inr (.inr (.inr (State.setButtons_eq hb)))
    | error err => rw [Event.run_setButtons_error fuel hb] at h; cases h; exact .inl ⟨0, rfl⟩
  | observe => cases h; exact .inl ⟨0, rfl⟩

theorem State.afterLoad_inv {image : List InstrWord} (h : imageWf image = true) : (State.afterLoad image).Inv :=
  ⟨rfl, rfl, h⟩

theorem load_inv {source : List Char} {s : State} (h : load source = .ok s) : s.Inv := by
  obtain ⟨image, -, himage, rfl⟩ := load_eq h
  exact State.afterLoad_inv himage

/-- A `Reset` clears data memory and keeps the image. -/
theorem State.Inv.hostReset {s : State} (h : s.Inv) : s.hostReset.Inv := by
  obtain ⟨-, -, himage⟩ := h
  exact State.afterLoad_inv himage

/-- Settles O52: steps keep the invariant, a `Reset` and a `Load` start with it, and it does not speak of the buttons. -/
theorem everyEventKeepsTheInvariant : Obligations.EveryEventKeepsTheInvariant := by
  refine ⟨fun s t fuel e a hinv h => ?_, fun _ _ => load_inv⟩
  rcases Event.run_cases h with ⟨n, rfl⟩ | rfl | ⟨source, hl⟩ | ⟨b, rfl⟩
  · exact stepN_keeps stepKeepsTheInvariant n hinv
  · exact hinv.hostReset
  · exact load_inv hl
  · exact hinv.congr rfl rfl

/-- Settles O39: by induction on the events since the `Load`. -/
theorem reachableStatesMeetTheInvariant : Obligations.ReachableStatesMeetTheInvariant := by
  intro s hs
  induction hs with
  | load h => exact load_inv h
  | event _ h ih => exact everyEventKeepsTheInvariant.1 _ _ _ _ _ ih h

/-! ## Reset (R143, R144) -/

/-- A `Reset` leaves the state a `Load` of the present image would. -/
theorem State.hostReset_eq_afterLoad (s : State) : s.hostReset = State.afterLoad s.imem := rfl

/-- After a `Load` every cell is 0: the image apart, it is the reset state. -/
theorem State.afterLoad_zero (image : List InstrWord) :
    (State.afterLoad image).pc = 0 ∧ (∀ r, (State.afterLoad image).readReg r = 0) ∧
      (∀ a, (State.afterLoad image).readDmem a = 0) ∧ (∀ k, (State.afterLoad image).readButton k = 0) ∧
      ∀ r c, (State.afterLoad image).readPixel r c = 0 := by
  obtain ⟨-, -, hzero⟩ := resetStateMeetsInvariant
  exact hzero

/-- Settles O40: the state after a `Reset` is the one after a `Load` of the same image. -/
theorem resetZeroesAllButTheImage : Obligations.ResetZeroesAllButTheImage := by
  intro s fuel
  obtain ⟨hpc, hregs, hdmem, hbtn, hpix⟩ := State.afterLoad_zero s.imem
  exact ⟨s.hostReset, rfl, hpc, hregs, hdmem, hbtn, hpix, rfl⟩

/-- Settles O41: steps keep the image, which is all that a `Reset` takes over. -/
theorem resetRestartsTheLoadedProgram : Obligations.ResetRestartsTheLoadedProgram := by
  refine ⟨fun _ => rfl, fun source s n h => ?_⟩
  obtain ⟨image, -, -, rfl⟩ := load_eq h
  rw [State.hostReset_eq_afterLoad, stepN_imem]
  rfl

/-! ## Load (R145 to R148) -/

/-- Settles O42: the event answers the state after the load of the image read. -/
theorem successfulLoadReplacesTheImageAndResets : Obligations.SuccessfulLoadReplacesTheImageAndResets := by
  intro source image u fuel himage
  have hload : load source = .ok (State.afterLoad image) := by simp only [load, himage]
  exact ⟨_, Event.run_load_ok fuel u hload, rfl, State.afterLoad_zero image⟩

/-- A token that stands for a word: hexadecimal digits worth at most 0xFFFF (R145, R148 a). -/
def IsWordToken (token : List Char) : Prop := IsToken token ∧ tokenNumber token ≤ 0xFFFF

/-- The word a token stands for. -/
def tokenWord (token : List Char) : InstrWord := BitVec.ofNat 16 (tokenNumber token)

theorem digits_of_hexValueFrom {token : List Char} {acc v : Nat} (h : hexValueFrom acc token = some v) :
    ∀ c ∈ token, (hexDigit c).isSome = true := by
  induction token generalizing acc with
  | nil => exact fun _ hc => nomatch hc
  | cons c rest ih =>
    simp only [hexValueFrom] at h
    split at h
    next d hd => exact List.forall_mem_cons.mpr ⟨by rw [hd]; rfl, ih h⟩
    next => cases h

/-- A token has a value exactly when its characters are digits, and the value is the number by place. -/
theorem hexValueFrom_zero_eq_some_iff {token : List Char} {v : Nat} :
    hexValueFrom 0 token = some v ↔ (∀ c ∈ token, (hexDigit c).isSome = true) ∧ tokenNumber token = v := by
  constructor
  · intro h
    have hdigits := digits_of_hexValueFrom h
    rw [hexValueFrom_eq hdigits, Nat.zero_mul, Nat.zero_add] at h
    exact ⟨hdigits, Option.some.inj h⟩
  · rintro ⟨hdigits, rfl⟩
    rw [hexValueFrom_eq hdigits, Nat.zero_mul, Nat.zero_add]

theorem wordOfToken_eq_ok_iff {token : List Char} {w : InstrWord} :
    wordOfToken token = .ok w ↔ IsWordToken token ∧ w = tokenWord token := by
  constructor
  · intro h
    unfold wordOfToken at h
    split at h
    · cases h
    next hne =>
      split at h
      next v hv =>
        obtain ⟨hdigits, rfl⟩ := hexValueFrom_zero_eq_some_iff.mp hv
        split at h
        next hle => cases h; exact ⟨⟨⟨hne, hdigits⟩, hle⟩, rfl⟩
        next => cases h
      next => cases h
  · rintro ⟨⟨⟨hne, hdigits⟩, hle⟩, rfl⟩
    simp only [wordOfToken, if_neg hne, hexValueFrom_zero_eq_some_iff.mpr ⟨hdigits, rfl⟩, if_pos hle, tokenWord]

theorem wordsOfTokens_cons_eq_ok_iff {token : List Char} {rest : List (List Char)} {image : List InstrWord} :
    wordsOfTokens (token :: rest) = .ok image ↔
      ∃ w ws, wordOfToken token = .ok w ∧ wordsOfTokens rest = .ok ws ∧ image = w :: ws := by
  cases hw : wordOfToken token with
  | error e => simp [wordsOfTokens, hw]
  | ok w =>
    cases hws : wordsOfTokens rest with
    | error e => simp [wordsOfTokens, hw, hws]
    | ok ws => simp [wordsOfTokens, hw, hws, eq_comm]

/-- A list of tokens is read exactly when each stands for a word, and then as those words. -/
theorem wordsOfTokens_eq_ok_iff {tokens : List (List Char)} {image : List InstrWord} :
    wordsOfTokens tokens = .ok image ↔ (∀ token ∈ tokens, IsWordToken token) ∧ image = tokens.map tokenWord := by
  induction tokens generalizing image with
  | nil => simp [wordsOfTokens, eq_comm]
  | cons token rest ih =>
    rw [wordsOfTokens_cons_eq_ok_iff, List.forall_mem_cons, List.map_cons]
    constructor
    · rintro ⟨w, ws, hw, hws, rfl⟩
      obtain ⟨htoken, rfl⟩ := wordOfToken_eq_ok_iff.mp hw
      obtain ⟨hrest, rfl⟩ := ih.mp hws
      exact ⟨⟨htoken, hrest⟩, rfl⟩
    · rintro ⟨⟨htoken, hrest⟩, rfl⟩
      exact ⟨_, _, wordOfToken_eq_ok_iff.mpr ⟨htoken, rfl⟩, ih.mpr ⟨hrest, rfl⟩, rfl⟩

/-- A text loads exactly when each of its tokens stands for a word and there are at most 4096 of them; what it gives is
the state after the load of those words. -/
theorem load_eq_ok_iff {source : List Char} {s : State} :
    load source = .ok s ↔ (∀ token ∈ tokensFrom [] source, IsWordToken token) ∧
      (tokensFrom [] source).length ≤ 4096 ∧ s = State.afterLoad ((tokensFrom [] source).map tokenWord) := by
  constructor
  · intro h
    obtain ⟨image, hparse, himage, rfl⟩ := load_eq h
    unfold parseImage at hparse
    split at hparse
    next ws hws =>
      split at hparse
      next =>
        cases hparse
        obtain ⟨htokens, rfl⟩ := wordsOfTokens_eq_ok_iff.mp hws
        have hlen := of_decide_eq_true himage
        rw [List.length_map] at hlen
        exact ⟨htokens, hlen, rfl⟩
      next => cases hparse
    next => cases hparse
  · rintro ⟨htokens, hlen, rfl⟩
    have himage : imageWf ((tokensFrom [] source).map tokenWord) = true :=
      decide_eq_true (by rw [List.length_map]; exact hlen)
    simp only [load, parseImage, wordsOfTokens_eq_ok_iff.mpr ⟨htokens, rfl⟩, himage, if_true]

/-- There is one way to fail. -/
theorem load_eq_error_iff {source : List Char} : load source = .error .loadError ↔ ∀ s, load source ≠ .ok s := by
  cases load source with
  | ok s => simp
  | error e => cases e; simp

theorem load_error_of_bad_token {source token : List Char} (h : token ∈ tokensFrom [] source)
    (hbad : ¬ IsWordToken token) : load source = .error .loadError := by
  refine load_eq_error_iff.mpr fun s hok => ?_
  obtain ⟨htokens, -, -⟩ := load_eq_ok_iff.mp hok
  exact hbad (htokens token h)

theorem load_error_of_many_tokens {source : List Char} (h : 4096 < (tokensFrom [] source).length) :
    load source = .error .loadError := by
  refine load_eq_error_iff.mpr fun s hok => ?_
  obtain ⟨-, hlen, -⟩ := load_eq_ok_iff.mp hok
  omega

/-- Every character of a text that separates nothing, and every one of the token under way, is in a token. -/
theorem mem_tokensFrom {c : Char} {cur text : List Char} (h : c ∈ cur ∨ c ∈ text ∧ isSeparator c = false) :
    ∃ token ∈ tokensFrom cur text, c ∈ token := by
  induction text generalizing cur with
  | nil =>
    have hcur : c ∈ cur := by simpa using h
    exact ⟨cur, by simp [tokensFrom, List.ne_nil_of_mem hcur], hcur⟩
  | cons d rest ih =>
    rw [tokensFrom]
    split
    next hd =>
      have hrest : c ∈ cur ∨ c ∈ rest ∧ isSeparator c = false := by
        refine h.imp_right fun ⟨hmem, hc⟩ => ⟨(List.mem_cons.mp hmem).resolve_left fun heq => ?_, hc⟩
        rw [heq, hd] at hc
        cases hc
      rcases hrest with hcur | hrest
      · rw [if_neg (List.ne_nil_of_mem hcur)]
        exact ⟨cur, List.mem_cons_self, hcur⟩
      · obtain ⟨token, htoken, hc⟩ := ih (cur := []) (.inr hrest)
        refine ⟨token, ?_, hc⟩
        split
        · exact htoken
        · exact List.mem_cons_of_mem _ htoken
    next =>
      apply ih
      rw [List.mem_append, List.mem_singleton]
      rcases h with hcur | ⟨hmem, hc⟩
      · exact .inl (.inl hcur)
      · exact (List.mem_cons.mp hmem).imp .inr fun hrest => ⟨hrest, hc⟩

/-- Settles O43: the character stands in a token, which then is none that stands for a word. -/
theorem failedLoadChangesNothing : Obligations.FailedLoadChangesNothing := by
  refine ⟨fun _ _ u fuel h => Event.run_load_error fuel u h, fun source c hmem hsep hdigit => ?_⟩
  obtain ⟨token, htoken, hc⟩ := mem_tokensFrom (cur := []) (.inr ⟨hmem, hsep⟩)
  refine load_error_of_bad_token htoken fun ⟨⟨_, hdigits⟩, _⟩ => ?_
  have := hdigits c hc
  rw [hdigit] at this
  cases this

/-! ## The texts that load (R36, R145, R148) -/

theorem isSeparator_iff (c : Char) : isSeparator c = true ↔ c ∈ [' ', '\t', '\n', '\r'] := by
  simp [isSeparator, or_assoc]

theorem isSeparator_of_digit {c : Char} (h : (hexDigit c).isSome = true) : isSeparator c = false := by
  by_contra hsep
  have hmem := (isSeparator_iff c).mp (Bool.eq_true_of_not_eq_false hsep)
  have hnone : ∀ c ∈ [' ', '\t', '\n', '\r'], hexDigit c = none := by simp [hexDigit]
  rw [hnone c hmem] at h
  cases h

theorem IsToken.no_separator {token : List Char} (h : IsToken token) : ∀ c ∈ token, isSeparator c = false :=
  fun c hc => isSeparator_of_digit (h.2 c hc)

/-- A last token that the text ends in. -/
theorem tokensFrom_last {last : List Char} (h : last = [] ∨ IsToken last) :
    tokensFrom [] last = if last = [] then [] else [last] := by
  rcases h with rfl | hlast
  · rfl
  · have := tokensFrom_token hlast.no_separator [] []
    rwa [List.append_nil, List.nil_append] at this

/-- Tokens with separators after each, and what follows. -/
theorem tokensFrom_pieces {pieces : List (List Char × List Char)}
    (h : ∀ p ∈ pieces, IsToken p.1 ∧ p.2 ≠ [] ∧ ∀ c ∈ p.2, isSeparator c = true) (rest : List Char) :
    tokensFrom [] (pieces.flatMap (fun p => p.1 ++ p.2) ++ rest) = pieces.map (·.1) ++ tokensFrom [] rest := by
  induction pieces with
  | nil => rfl
  | cons p pieces ih =>
    obtain ⟨⟨htoken, hne, hgap⟩, hpieces⟩ := List.forall_mem_cons.mp h
    obtain ⟨token, gap⟩ := p
    obtain ⟨c, gap, rfl⟩ := List.exists_cons_of_ne_nil hne
    obtain ⟨hc, hgap⟩ := List.forall_mem_cons.mp hgap
    rw [List.flatMap_cons, List.append_assoc, List.append_assoc, List.cons_append,
      tokensFrom_token_separator htoken.1 htoken.no_separator hc, tokensFrom_separators hgap, ih hpieces]
    rfl

/-- A digit is the upper-case character of its value, or the lower-case one of a value from 10 on. -/
theorem char_of_hexDigit {c : Char} {d : Nat} (h : hexDigit c = some d) :
    d < 16 ∧ (c = hexChar d ∨ 10 ≤ d ∧ c = Char.ofNat (87 + d)) := by
  have hc : ∀ n, c.toNat = n → c = Char.ofNat n := fun n hn => by rw [← hn, Char.ofNat_toNat]
  have hdecimal : '0'.toNat = 48 ∧ '9'.toNat = 57 := by decide
  have hlower : 'a'.toNat = 97 ∧ 'f'.toNat = 102 := by decide
  have hupper : 'A'.toNat = 65 ∧ 'F'.toNat = 70 := by decide
  unfold hexDigit at h
  split at h
  next =>
    cases h
    have hlt : c.toNat - '0'.toNat < 10 := by omega
    exact ⟨by omega, .inl (by rw [hexChar, if_pos hlt]; exact hc _ (by omega))⟩
  next =>
    split at h
    next =>
      cases h
      exact ⟨by omega, .inr ⟨by omega, hc _ (by omega)⟩⟩
    next =>
      split at h
      next =>
        cases h
        have hge : ¬ c.toNat - 'A'.toNat + 10 < 10 := by omega
        exact ⟨by omega, .inl (by rw [hexChar, if_neg hge]; exact hc _ (by omega))⟩
      next => cases h

/-- The entries of a list of digit characters have the values of their places. -/
theorem hexDigit_of_getElem? {digits : List Char}
    (hvalue : ∀ d (hd : d < digits.length), hexDigit digits[d] = some d) {c : Char} {d : Nat}
    (h : digits[d]? = some c) : hexDigit c = some d := by
  obtain ⟨hd, rfl⟩ := List.getElem?_eq_some_iff.mp h
  exact hvalue d hd

/-- The digits with the letters in lower case, by value. -/
def lowerDigits : List Char := ['0', '1', '2', '3', '4', '5', '6', '7', '8', '9', 'a', 'b', 'c', 'd', 'e', 'f']

/-- The digits with the letters in upper case, by value. -/
def upperDigits : List Char := ['0', '1', '2', '3', '4', '5', '6', '7', '8', '9', 'A', 'B', 'C', 'D', 'E', 'F']

theorem upperDigits_getElem? : ∀ d < 16, upperDigits[d]? = some (hexChar d) := by decide

theorem lowerDigits_getElem? : ∀ d < 16, 10 ≤ d → lowerDigits[d]? = some (Char.ofNat (87 + d)) := by decide

theorem hexDigit_eq_some_iff (c : Char) (d : Nat) :
    hexDigit c = some d ↔ lowerDigits[d]? = some c ∨ upperDigits[d]? = some c := by
  constructor
  · intro h
    obtain ⟨hd, rfl | ⟨hge, rfl⟩⟩ := char_of_hexDigit h
    · exact .inr (upperDigits_getElem? d hd)
    · exact .inl (lowerDigits_getElem? d hd hge)
  · rintro (h | h)
    · exact hexDigit_of_getElem? (by decide) h
    · exact hexDigit_of_getElem? (by decide) h

/-- Settles O53: the tokens of the text are those it was made of, and `load_eq_ok_iff` reads them. -/
theorem loadReadsTokensByPlaceValue : Obligations.LoadReadsTokensByPlaceValue := by
  refine ⟨hexDigit_eq_some_iff, isSeparator_iff, fun lead pieces last hlead hpieces hlast => ?_⟩
  intro tokens source
  have htokens : tokensFrom [] source = tokens := by
    rw [show source = lead ++ (pieces.flatMap (fun p => p.1 ++ p.2) ++ last) from List.append_assoc _ _ _,
      tokensFrom_separators hlead, tokensFrom_pieces hpieces, tokensFrom_last hlast]
  have hdigits : ∀ token ∈ tokens, IsToken token := by
    refine List.forall_mem_append.mpr ⟨List.forall_mem_map.mpr fun p hp => (hpieces p hp).1, ?_⟩
    rcases hlast with rfl | hlast
    · exact fun _ h => nomatch h
    · rw [if_neg hlast.1]
      exact List.forall_mem_singleton.mpr hlast
  rw [← htokens] at hdigits ⊢
  refine ⟨fun hlen hle => ?_, load_error_of_many_tokens, fun ⟨token, hmem, hlt⟩ => ?_⟩
  · exact load_eq_ok_iff.mpr ⟨fun token hmem => ⟨hdigits token hmem, hle token hmem⟩, hlen, rfl⟩
  · exact load_error_of_bad_token hmem fun ⟨_, hle⟩ => Nat.not_lt.mpr hle hlt

theorem isToken_tokenOfWord (w : InstrWord) : IsToken (tokenOfWord w) := by
  have hdigit : ∀ n, (hexDigit (hexChar (n % 16))).isSome = true := fun n => by
    rw [(hexDigit_hexChar (n % 16) (Nat.mod_lt n (by decide))).1]
    rfl
  refine ⟨List.cons_ne_nil _ _, ?_⟩
  simp [tokenOfWord, hdigit]

/-- The four digits of a word have its value. -/
theorem tokenNumber_tokenOfWord (w : InstrWord) : tokenNumber (tokenOfWord w) = w.toNat := by
  have hdigit : ∀ n, hexDigit (hexChar (n % 16)) = some (n % 16) := fun n =>
    (hexDigit_hexChar (n % 16) (Nat.mod_lt n (by decide))).1
  have := w.isLt
  simp only [tokenOfWord, tokenNumber, hdigit, Option.getD_some, List.length_cons, List.length_nil]
  omega

theorem isWordToken_tokenOfWord (w : InstrWord) : IsWordToken (tokenOfWord w) :=
  ⟨isToken_tokenOfWord w, by rw [tokenNumber_tokenOfWord]; exact Nat.le_of_lt_succ w.isLt⟩

/-- The token written for a word stands for it. -/
theorem tokenWord_tokenOfWord (w : InstrWord) : tokenWord (tokenOfWord w) = w := by
  rw [tokenWord, tokenNumber_tokenOfWord, BitVec.ofNat_toNat, BitVec.setWidth_eq]

theorem tokensFrom_textOfImage (image : List InstrWord) : tokensFrom [] (textOfImage image) = image.map tokenOfWord := by
  induction image with
  | nil => rfl
  | cons w image ih =>
    rw [textOfImage, List.flatMap_cons, List.append_assoc, List.singleton_append,
      tokensFrom_token_separator (isToken_tokenOfWord w).1 (isToken_tokenOfWord w).no_separator rfl]
    exact congrArg (tokenOfWord w :: ·) ih

/-- Settles O44: the text has one token for each word, which stands for it. -/
theorem loadOfAnImageTextGivesTheImage : Obligations.LoadOfAnImageTextGivesTheImage := by
  intro image
  have htokens := tokensFrom_textOfImage image
  constructor
  · intro hlen
    rw [load_eq_ok_iff, htokens, List.length_map, List.map_map]
    have hwords : tokenWord ∘ tokenOfWord = id := funext tokenWord_tokenOfWord
    exact ⟨List.forall_mem_map.mpr fun w _ => isWordToken_tokenOfWord w, hlen, by rw [hwords, List.map_id]⟩
  · intro hlen
    exact load_error_of_many_tokens (by rw [htokens, List.length_map]; exact hlen)

end Sys2Proof.Machine
